-- ==== Sys2Proof/Word.lean ====
section
/-! DEFINITION. The word, the text and the plainest notation of the spec (00_scope.md R6, R13).

A Word is "an unsigned integer of `W` bits" (R6), here a `Nat`: W is part of the state, so the width is not in the type,
and the bound `w < 2 ^ W` is a clause of the machine's invariant. The spec's own notation (R13) is integer arithmetic on
such numbers. DESIGN CHOICE, safe (log 1). -/

namespace Sys2Proof

/-- A text the host sends or receives: its character codes in order (44_io.md R201, R212, R216).
DESIGN CHOICE, safe (log 20). -/
abbrev Text := List Nat

/-- `mask(k)` = 2^k − 1 (R13). -/
def mask (k : Nat) : Nat := 2 ^ k - 1

end Sys2Proof
end

