-- ==== Sys2Proof/Config.lean ====
section
/-! DEFINITION. What an implementation fixes: the Architecture record and the spec's named parameters
(00_scope.md R6 to R11, 10_state.md R33). A `Config` is a field of State, so a statement over all states is a
statement over all parameters. -/

namespace Sys2Proof

/-- The opcode width O ∈ {4, 5} (R7). -/
inductive OpcodeWidth where
  | four
  | five
deriving DecidableEq, Repr

/-- O as a number of bits. -/
def OpcodeWidth.bits : OpcodeWidth → Nat
  | .four => 4
  | .five => 5

/-- DIV_ROUNDING (R10). -/
inductive DivRounding where
  | trunc
  | floor
deriving DecidableEq, Repr

/-- OUA_GROUP_ALIGN (R11). -/
inductive GroupAlign where
  | lsb
  | msb
deriving DecidableEq, Repr

/-- The 32 mnemonics with a meaning, in the order of 30_encoding.md R75 item 4. -/
inductive Mnemonic where
  | hlt | lda | sta | add | sub | mul | div | mod
  | jmp | jeq | jlt | out | oua | inp | ina | nop
  | adds | subs | muls | divs | mods
  | and | or | xor | not | adb | shr | shl | ror | rol
  | cmp | cmps
deriving DecidableEq, Repr

/-- The Architecture (W, O) and the parameters CATALOGUE, DIV_ROUNDING and OUA_GROUP_ALIGN. `catalogue` lists
the entries by index: entry k is CATALOGUE(k), and an index past the end has no entry (R9). -/
structure Config where
  wordWidth : Nat
  opcodeWidth : OpcodeWidth
  catalogue : List Mnemonic
  divRounding : DivRounding
  ouaGroupAlign : GroupAlign
deriving DecidableEq, Repr

/-- The address width AW = W − O (R8). -/
def Config.addressWidth (cfg : Config) : Nat := cfg.wordWidth - cfg.opcodeWidth.bits

/-- The configurations the spec allows: W by R6; a catalogue as 30_encoding.md R75 and R77 ask (30 entries at 0..29,
index 8 OUT, no mnemonic twice, and ROL, which "appears in the catalogue"). O ∈ {4, 5} and the two enumerations hold by
their types. -/
abbrev Config.legal (cfg : Config) : Prop :=
  8 ≤ cfg.wordWidth ∧ cfg.wordWidth ≤ 64 ∧ cfg.catalogue.length = 30 ∧
    cfg.catalogue[8]? = some .out ∧ cfg.catalogue.Nodup ∧ .rol ∈ cfg.catalogue

/-- The default catalogue, index 0 to 29 (30_encoding.md R76; the spec's decision D1, log 3). -/
def defaultCatalogue : List Mnemonic :=
  [.hlt, .lda, .sta, .add, .sub, .mul, .div, .mod, .out, .jmp] ++
  [.jeq, .jlt, .oua, .inp, .ina, .nop, .adds, .subs, .muls, .divs] ++
  [.mods, .and, .or, .xor, .not, .adb, .shr, .shl, .ror, .rol]

/-- The configuration with the given W and O and the spec's defaults for the three other parameters
(R10, R11, R76). -/
def Config.standard (w : Nat) (o : OpcodeWidth) : Config where
  wordWidth := w
  opcodeWidth := o
  catalogue := defaultCatalogue
  divRounding := .trunc
  ouaGroupAlign := .lsb

/-- The configuration of `State.reset`: W = 16 and O = 5. DESIGN CHOICE, unsafe: the spec gives W and O no
default (D16, log 2). -/
def Config.default : Config := Config.standard 16 .five

end Sys2Proof
end

