-- ==== Sys2Proof/Syntax.lean ====
section
/-! DEFINITION. The instructions: one constructor per row of spec/opcode_table.json. Every instruction is one word of
the single format OA, an opcode and an address field (30_encoding.md R70, R72), so every constructor carries the
address field, also where the instruction ignores it (R79): no bit of a word is dropped. -/

namespace Sys2Proof

/-- The instruction words by mnemonic. The last two are the table's rows for opcodes without an entry (R79, R260). -/
inductive Instr where
  /-- HLT, 43_control.md R180; the address field is ignored. -/
  | hlt (address : Nat)
  /-- LDA, 41_load_store.md R140. -/
  | lda (address : Nat)
  /-- STA, R141. -/
  | sta (address : Nat)
  /-- ADD, 42_arithmetic.md R150. -/
  | add (address : Nat)
  /-- SUB, R151. -/
  | sub (address : Nat)
  /-- MUL, R152. -/
  | mul (address : Nat)
  /-- DIV, R153. -/
  | div (address : Nat)
  /-- MOD, R154. -/
  | mod (address : Nat)
  /-- OUT, 44_io.md R200. -/
  | out (address : Nat)
  /-- JMP, 43_control.md R182. -/
  | jmp (address : Nat)
  /-- JEQ, R183. -/
  | jeq (address : Nat)
  /-- JLT, R184. -/
  | jlt (address : Nat)
  /-- OUA, 44_io.md R201. -/
  | oua (address : Nat)
  /-- INP, R202. -/
  | inp (address : Nat)
  /-- INA, R203. -/
  | ina (address : Nat)
  /-- NOP, 43_control.md R185; the address field is ignored. -/
  | nop (address : Nat)
  /-- ADDS, 42_arithmetic.md R160. -/
  | adds (address : Nat)
  /-- SUBS, R161. -/
  | subs (address : Nat)
  /-- MULS, R162. -/
  | muls (address : Nat)
  /-- DIVS, R163. -/
  | divs (address : Nat)
  /-- MODS, R164. -/
  | mods (address : Nat)
  /-- AND, 45_logic_shift_compare.md R230. -/
  | and (address : Nat)
  /-- OR, R231. -/
  | or (address : Nat)
  /-- XOR, R232. -/
  | xor (address : Nat)
  /-- NOT, R233; the address field is ignored. -/
  | not (address : Nat)
  /-- ADB, 42_arithmetic.md R170. -/
  | adb (address : Nat)
  /-- SHR, 45_logic_shift_compare.md R240. -/
  | shr (address : Nat)
  /-- SHL, R241. -/
  | shl (address : Nat)
  /-- ROR, R242. -/
  | ror (address : Nat)
  /-- ROL, R243; the address field is ignored. -/
  | rol (address : Nat)
  /-- CMP, R250. -/
  | cmp (address : Nat)
  /-- CMPS, R251. -/
  | cmps (address : Nat)
  /-- opcode 30 under O = 5: no catalogue entry, raises InvalidOpcode (60_exceptions.md R260). -/
  | invalid30 (address : Nat)
  /-- opcode 31 under O = 5: no catalogue entry, raises InvalidOpcode (R260). -/
  | invalid31 (address : Nat)
deriving DecidableEq, Repr

/-- The instruction a catalogue entry and an address field make (40_step_engine.md R104). -/
def Instr.ofMnemonic (a : Nat) : Mnemonic → Instr
  | .hlt => .hlt a
  | .lda => .lda a
  | .sta => .sta a
  | .add => .add a
  | .sub => .sub a
  | .mul => .mul a
  | .div => .div a
  | .mod => .mod a
  | .out => .out a
  | .jmp => .jmp a
  | .jeq => .jeq a
  | .jlt => .jlt a
  | .oua => .oua a
  | .inp => .inp a
  | .ina => .ina a
  | .nop => .nop a
  | .adds => .adds a
  | .subs => .subs a
  | .muls => .muls a
  | .divs => .divs a
  | .mods => .mods a
  | .and => .and a
  | .or => .or a
  | .xor => .xor a
  | .not => .not a
  | .adb => .adb a
  | .shr => .shr a
  | .shl => .shl a
  | .ror => .ror a
  | .rol => .rol a
  | .cmp => .cmp a
  | .cmps => .cmps a

/-- The mnemonic whose catalogue entry the instruction is; none for the two words without an entry. -/
def Instr.mnemonic : Instr → Option Mnemonic
  | .hlt _ => some .hlt
  | .lda _ => some .lda
  | .sta _ => some .sta
  | .add _ => some .add
  | .sub _ => some .sub
  | .mul _ => some .mul
  | .div _ => some .div
  | .mod _ => some .mod
  | .out _ => some .out
  | .jmp _ => some .jmp
  | .jeq _ => some .jeq
  | .jlt _ => some .jlt
  | .oua _ => some .oua
  | .inp _ => some .inp
  | .ina _ => some .ina
  | .nop _ => some .nop
  | .adds _ => some .adds
  | .subs _ => some .subs
  | .muls _ => some .muls
  | .divs _ => some .divs
  | .mods _ => some .mods
  | .and _ => some .and
  | .or _ => some .or
  | .xor _ => some .xor
  | .not _ => some .not
  | .adb _ => some .adb
  | .shr _ => some .shr
  | .shl _ => some .shl
  | .ror _ => some .ror
  | .rol _ => some .rol
  | .cmp _ => some .cmp
  | .cmps _ => some .cmps
  | .invalid30 _ => none
  | .invalid31 _ => none

/-- The address field of the instruction's word (30_encoding.md R70). -/
def Instr.address : Instr → Nat
  | .hlt a => a
  | .lda a => a
  | .sta a => a
  | .add a => a
  | .sub a => a
  | .mul a => a
  | .div a => a
  | .mod a => a
  | .out a => a
  | .jmp a => a
  | .jeq a => a
  | .jlt a => a
  | .oua a => a
  | .inp a => a
  | .ina a => a
  | .nop a => a
  | .adds a => a
  | .subs a => a
  | .muls a => a
  | .divs a => a
  | .mods a => a
  | .and a => a
  | .or a => a
  | .xor a => a
  | .not a => a
  | .adb a => a
  | .shr a => a
  | .shl a => a
  | .ror a => a
  | .rol a => a
  | .cmp a => a
  | .cmps a => a
  | .invalid30 a => a
  | .invalid31 a => a

end Sys2Proof
end

