-- ==== Sys2Proof/WellFormed.lean ====
section
/-! DEFINITION. Which instructions have a word under a configuration (30_encoding.md R71, R73, R77, R79). -/

namespace Sys2Proof

/-- The opcode index of an instruction under a configuration: the place of its mnemonic in the catalogue (R9), 30 or
31 for the two words without an entry. -/
def opcodeOf (cfg : Config) (i : Instr) : Option Nat :=
  match i with
  | .invalid30 _ => some 30
  | .invalid31 _ => some 31
  | i => i.mnemonic.bind (fun m => cfg.catalogue.findIdx? (fun e => decide (e = m)))

/-- The opcode field can hold the instruction's index (R71): "entries 16–29 are only reachable when `O = 5`" (R75). -/
def opcodeFits (cfg : Config) (i : Instr) : Bool :=
  match opcodeOf cfg i with
  | some op => decide (op < 2 ^ cfg.opcodeWidth.bits)
  | none => false

/-- The address field can hold the instruction's address: 0 ≤ address ≤ 2^AW − 1 (R71). -/
def addressFits (cfg : Config) (i : Instr) : Bool :=
  decide (i.address < 2 ^ cfg.addressWidth)

/-- An instruction that has a word under the configuration. The encoder and the round trip are about these. -/
def WellFormed (cfg : Config) (i : Instr) : Bool :=
  opcodeFits cfg i && addressFits cfg i

end Sys2Proof
end

