-- ==== Sys2Proof/Decode.lean ====
section
/-! DEFINITION. The decoder (instruction_decoder_mux, 30_encoding.md R70, R78) and after it the encoder (R73). -/

namespace Sys2Proof

/-- The one decode-time failure (R78): the opcode index has no entry. Raised by `lookup` for an index without an entry,
taken by the step as InvalidOpcode; safe, the spec gives its effect (60_exceptions.md R260). -/
inductive DecodeError where
  | invalidOpcode (op : Nat)
deriving DecidableEq, Repr

/-- `opcode = word >> addressWidth` (R70). -/
def opcodeField (cfg : Config) (w : Nat) : Nat := w >>> cfg.addressWidth

/-- `address = word & (2^addressWidth - 1)` (R70). -/
def addressField (cfg : Config) (w : Nat) : Nat := w &&& mask cfg.addressWidth

/-- `lookup(opcodeIndex)`: the catalogue entry, or none "if `opcodeIndex >= 2^O` or the catalogue has no entry at that
index" (R78). -/
def lookup (cfg : Config) (op : Nat) : Option Mnemonic :=
  if op < 2 ^ cfg.opcodeWidth.bits then cfg.catalogue[op]? else none

/-- The instruction of a word whose opcode has no entry: the table's rows 30 and 31, which need O = 5 (R79); any
other index is rejected by name. -/
def decodeMissing (cfg : Config) (op a : Nat) : Except DecodeError Instr :=
  match cfg.opcodeWidth, op with
  | .five, 30 => .ok (.invalid30 a)
  | .five, 31 => .ok (.invalid31 a)
  | _, _ => .error (.invalidOpcode op)

/-- The instruction a word is, under a configuration: total on any number (R70, R78, R80). -/
def decode (cfg : Config) (w : Nat) : Except DecodeError Instr :=
  match lookup cfg (opcodeField cfg w) with
  | some m => .ok (Instr.ofMnemonic (addressField cfg w) m)
  | none => decodeMissing cfg (opcodeField cfg w) (addressField cfg w)

/-- `encode(opcode, address) = opcode·2^AW + address` (R73). -/
def encodeFields (cfg : Config) (op a : Nat) : Nat := op * 2 ^ cfg.addressWidth + a

/-- The word of an instruction; none where the catalogue gives its mnemonic no index. -/
def encode (cfg : Config) (i : Instr) : Option Nat :=
  (opcodeOf cfg i).map (fun op => encodeFields cfg op i.address)

/-- The word whose bits spec/opcode_table.json numbers as w: the table's bits 4..0 are the opcode field ("op = word >>
(W - O)"), and the bits above them are read as the address field from its bit 0 (DEDUCED, log 32). Nothing above W
bits is kept. -/
def wordOfTable (cfg : Config) (nbits w : Nat) : Nat :=
  encodeFields cfg ((w % 2 ^ nbits) % 32) ((w % 2 ^ nbits) / 32 % 2 ^ cfg.addressWidth) % 2 ^ cfg.wordWidth

/-- The decoder's answer on a table-numbered word, under the reset configuration. -/
def decodeTableWord (nbits w : Nat) : Option Instr :=
  (decode Config.default (wordOfTable Config.default nbits w)).toOption

end Sys2Proof
end

