-- ==== Sys2Proof/Machine/Alu.lean ====
section
/-! DEFINITION. The two's-complement unit (00_scope.md R13 to R17) and the values the instruction rules compute with it
(42_arithmetic.md, 45_logic_shift_compare.md). `W` is the word width. -/

namespace Sys2Proof.Machine

/-- `toSigned` (R14): "subtract `2^W` if `raw > 2^(W-1)-1`". -/
def toSigned (W : Nat) (u : Nat) : Int :=
  if u > 2 ^ (W - 1) - 1 then (u : Int) - (2 ^ W : Nat) else u

/-- `toUnsigned` (R15): "add `2^W` if `signed < 0`". Declared on −2^(W−1) ≤ s ≤ 2^(W−1) − 1. -/
def toUnsigned (W : Nat) (v : Int) : Nat :=
  if v < 0 then (v + (2 ^ W : Nat)).toNat else v.toNat

/-- `reduceToRange` in its closed form (R16): ((v + 2^(W−1)) mod 2^W) − 2^(W−1). -/
def reduceToRange (W : Nat) (v : Int) : Int :=
  (v + (2 ^ (W - 1) : Nat)) % (2 ^ W : Nat) - (2 ^ (W - 1) : Nat)

/-- The canonical range [−2^(W−1), 2^(W−1) − 1] (10_state.md R23). -/
abbrev canonical (W : Nat) (v : Int) : Prop :=
  -((2 ^ (W - 1) : Nat) : Int) ≤ v ∧ v ≤ ((2 ^ (W - 1) : Nat) : Int) - 1

/-- `u[hi:lo]` = (u div 2^lo) mod 2^(hi−lo+1) (R13). -/
def bitField (u : Nat) (hi lo : Nat) : Nat := u / 2 ^ lo % 2 ^ (hi - lo + 1)

/-- The quotient of a by a nonzero d, rounded by DIV_ROUNDING (R10, 42_arithmetic.md R155). -/
def quotient (r : DivRounding) (a d : Int) : Int :=
  match r with
  | .trunc => a.tdiv d
  | .floor => a.fdiv d

/-- The remainder that goes with the quotient (R155). -/
def remainder (r : DivRounding) (a d : Int) : Int :=
  match r with
  | .trunc => a.tmod d
  | .floor => a - d * a.fdiv d

/-- DIV's value (R153): 0 for a divisor of 0, else the quotient, reduced. -/
def divValue (W : Nat) (r : DivRounding) (a d : Int) : Int :=
  if d = 0 then 0 else reduceToRange W (quotient r a d)

/-- DIVS' value (R163): 0 for imm = 0, else the quotient, which cannot overflow and is written as it is (log 12). -/
def divImmValue (r : DivRounding) (a d : Int) : Int :=
  if d = 0 then 0 else quotient r a d

/-- MOD's and MODS' value (R154, R164): 0 for a divisor of 0, else the remainder. -/
def modValue (r : DivRounding) (a d : Int) : Int :=
  if d = 0 then 0 else remainder r a d

/-- `~_W u` = u ^ (2^W − 1) (R13). -/
def complement (W : Nat) (u : Nat) : Nat := u ^^^ mask W

/-- `u >> k`, 0 for k ≥ W (45_logic_shift_compare.md R240). -/
def shiftRight (W : Nat) (u : Nat) (k : Nat) : Nat :=
  if W ≤ k then 0 else u >>> k

/-- `(u << k) mod 2^W`, 0 for k ≥ W (R241). -/
def shiftLeft (W : Nat) (u : Nat) (k : Nat) : Nat :=
  if W ≤ k then 0 else (u <<< k) % 2 ^ W

/-- The rotation of R242: k = imm mod W, r = (u >> k) | ((u << (W − k)) mod 2^W). -/
def rotateRight (W : Nat) (u : Nat) (imm : Nat) : Nat :=
  let k := imm % W
  (u >>> k) ||| ((u <<< (W - k)) % 2 ^ W)

/-- "ACC←1 if equal else 0" (R250, R251). -/
def truth (b : Bool) : Int := if b then 1 else 0

end Sys2Proof.Machine
end

