-- ==== Sys2Proof/Machine/State.lean ====
section
/-! DEFINITION. The machine's state as plain data (10_state.md R20 to R35), its stop reasons and its state at reset. -/

namespace Sys2Proof.Machine

/-- Why a step stops with a fault. EMPTY: the core's one fault, InvalidOpcode, has its effect described (60_exceptions.md
R260) and is taken as a next state, and nothing else faults (R261). So nobody raises one; safe (log 35). -/
inductive Fault where
deriving DecidableEq, Repr

/-- Why a step is refused. -/
inductive Refusal where
  /-- Raised by `exec` alone, for an instruction that has no meaning yet; safe. No arm raises it: every instruction of
  the table has its meaning. -/
  | notModelled (mnemonic : String)
deriving DecidableEq, Repr

/-- What `exec` and `step` answer. -/
abbrev Result (σ : Type) := Host.Outcome σ Fault Refusal

/-- The engine's control machine (R28). -/
inductive Status where
  | idle
  | running
  | halted
deriving DecidableEq, Repr

/-- The request an INP or INA has pending with the host (R34, 44_io.md R211). -/
inductive Request where
  | integer
  | asciiString
deriving DecidableEq, Repr

/-- The error report InvalidOpcode gives the host: PC and op (40_step_engine.md R107, 60_exceptions.md R260). -/
structure Report where
  pc : Nat
  op : Nat
deriving DecidableEq, Repr

/-- The host's input provider in its two modes (44_io.md R213). `interactive` holds answers the host gives at
once, before it is asked, integers and strings apart, each in the order of the requests they answer (R210 to R212, log
23); `batch` holds the queue of lines (R214, R215). -/
inductive Provider where
  | interactive (integers : List Int) (strings : List Text)
  | batch (lines : List Text)
deriving DecidableEq, Repr

/-- Memory as the list of its nonzero words, (word index, word), by rising index; an unlisted index reads 0 (R26: "Every
index at or beyond memLen holds 0", R35: "all 0"). DESIGN CHOICE, safe: the cell is the word, the spec's smallest
addressable unit (20_memory.md R57, log 1). -/
abbrev Memory := List (Nat × Nat)

/-- The canonical form: indices strictly rising, no entry equal to what an unlisted index reads as. -/
abbrev Memory.wf (m : Memory) : Prop :=
  m.Pairwise (fun x y => x.1 < y.1) ∧ ∀ c ∈ m, c.2 ≠ 0

/-- The state S of R20 with the host-side streams of R30 and R31, the error reports of R260, the run loop's frequency of
R29 and the request in progress of R34. -/
structure State where
  /-- W, O and the other parameters (R20, R33); no step changes them. -/
  cfg : Config
  /-- ACC as a signed integer (R23). -/
  acc : Int
  /-- PC, an unbounded natural number (R25). -/
  pc : Nat
  /-- Mem (R26). -/
  mem : Memory
  /-- The current length of the Memory sequence (R27). -/
  memLen : Nat
  /-- Idle, Running or Halted (R28); RunState's `running` is `status = .running` (R29). -/
  status : Status
  /-- The frequency the host gave run() (R29). -/
  frequencyHz : Rat
  /-- The output buffer as the ordered list of appended texts (R30, R216). -/
  out : List Text
  /-- The error reports given to the host, in order (R260). -/
  reports : List Report
  /-- The host's input provider (R31, R213). -/
  input : Provider
  /-- The input request in progress (R34, R211). -/
  request : Option Request
  /-- A stop() asked for during a request in progress (40_step_engine.md R125). -/
  stopPending : Bool
deriving DecidableEq, Repr

/-- The power-on state under a configuration (70_reset_and_hazards.md R293, R35). The frequency and the provider are
the model's: DESIGN CHOICE, unsafe (logs 24 and 27). -/
def State.powerOn (cfg : Config) : State where
  cfg := cfg
  acc := 0
  pc := 0
  mem := []
  memLen := 16
  status := .idle
  frequencyHz := 1
  out := []
  reports := []
  input := .batch []
  request := none
  stopPending := false

/-- The machine right after power-on, under the configuration the model names (log 2). -/
def State.reset : State := State.powerOn Config.default

end Sys2Proof.Machine
end

