-- ==== Sys2Proof/Machine/Ops.lean ====
section
/-! DEFINITION. The named operations over memory, registers, status and streams; InvalidOpcode, the one exception, and
beside it the ways back from Halted. -/

namespace Sys2Proof.Machine

/-! ### Memory (20_memory.md) -/

/-- The word at an index; 0 where nothing is listed (10_state.md R26). -/
def Memory.read : Memory → Nat → Nat
  | [], _ => 0
  | (b, v) :: m, a => if a = b then v else Memory.read m a

/-- Put an entry in its place by rising index, replacing one of the same index. -/
def Memory.insert (a : Nat) (v : Nat) : Memory → Memory
  | [] => [(a, v)]
  | (b, w) :: m =>
    if a < b then (a, v) :: (b, w) :: m
    else if a = b then (a, v) :: m
    else (b, w) :: Memory.insert a v m

/-- Take the entry of an index out. -/
def Memory.erase (a : Nat) (m : Memory) : Memory := m.filter (fun c => decide (c.1 ≠ a))

/-- `Mem[a] <- v` (R53), in canonical form: a zero word is not listed. -/
def Memory.write (a : Nat) (v : Nat) (m : Memory) : Memory :=
  if v = 0 then Memory.erase a m else Memory.insert a v m

/-- The growth every access makes: `if a >= memLen: memLen <- a + 1` (R52, R53; log 7). -/
def State.touch (a : Nat) (s : State) : State :=
  { s with memLen := if s.memLen ≤ a then a + 1 else s.memLen }

/-- `MemWrite(a, v)` (R53). -/
def State.memWrite (a : Nat) (v : Nat) (s : State) : State :=
  { s.touch a with mem := Memory.write a v s.mem }

/-- A step begins with no request made. A suspended step that goes on makes its request again if the host still has not
answered (40_step_engine.md R108; log 22). -/
def State.begun (s : State) : State := { s with request := none }

/-- Fetch: `word <- MemRead(PC)` (R54, 40_step_engine.md R101), the word and the state after it. -/
def State.fetch (s : State) : Nat × State :=
  (Memory.read s.mem s.pc, s.touch s.pc)

/-! ### Registers (10_state.md R22 to R25) -/

/-- W of the machine. -/
def State.width (s : State) : Nat := s.cfg.wordWidth

/-- acc bits = toUnsigned(ACC) (00_scope.md R19). -/
def State.accBits (s : State) : Nat := toUnsigned s.width s.acc

/-- `ACC <- v`. -/
def State.setAcc (v : Int) (s : State) : State := { s with acc := v }

/-- `PC <- PC + 1`, in ℕ, no wrap (40_step_engine.md R106; log 8). -/
def State.advance (s : State) : State := { s with pc := s.pc + 1 }

/-- `PC <- address` of a taken jump, without increment (R106, 43_control.md R181). -/
def State.jump (a : Nat) (s : State) : State := { s with pc := a }

/-- `ACC <- v; PC <- PC + 1`, how every instruction that only writes ACC completes. -/
def State.finishAcc (v : Int) (s : State) : State := (s.setAcc v).advance

/-! ### Status and output -/

/-- `status <- Halted` (40_step_engine.md R106, R122). -/
def State.halt (s : State) : State := { s with status := .halted }

/-- `Out(s)`: append one text to the output buffer (44_io.md R216). -/
def State.emit (t : Text) (s : State) : State := { s with out := s.out ++ [t] }

/-- What step() returns to the host, read off the state it leaves: false when it leaves Halted and true otherwise
(40_step_engine.md R100, R122); none while a request is in progress, since the step has not completed (44_io.md R211). -/
def State.stepResult (t : State) : Option Bool :=
  if t.request.isSome then none else some (decide (t.status ≠ .halted))

/-! ### InvalidOpcode and the ways back (60_exceptions.md R260 to R264) -/

/-- Taking InvalidOpcode: `status <- Halted`, and the report (PC, op) to the host. PC, ACC, Mem and the output stay, and
nothing vectors (R260, R263). -/
def State.takeInvalidOpcode (op : Nat) (s : State) : State :=
  { s.halt with reports := s.reports ++ [{ pc := s.pc, op := op }] }

/-- reset() (70_reset_and_hazards.md R291): PC, ACC zero and Idle; memory, W, O and output stay. A request in progress
is dropped with the step that made it: DESIGN CHOICE, unsafe (log 26). -/
def State.hostReset (s : State) : State :=
  { s with pc := 0, acc := 0, status := .idle, request := none, stopPending := false }

/-- New (R290): reset(), and memory back to 16 zero words. It drops a request in progress as reset() does (log 26). -/
def State.new (s : State) : State :=
  { s.hostReset with mem := [], memLen := 16 }

end Sys2Proof.Machine
end

