-- ==== Sys2Proof/Machine/Operands.lean ====
section
/-! DEFINITION. The operand forms of step 3 (30_encoding.md R81, 40_step_engine.md R103). -/

namespace Sys2Proof.Machine

/-- The operand form of a catalogue entry (30_encoding.md R81). -/
inductive TargetKind where
  | addressed
  | selfReferential
  | none
deriving DecidableEq, Repr

/-- The target kinds: the self-referential list of R75 item 5; HLT and NOP none; every other entry addressed (the
spec's decision D2, log 6). -/
def targetKind : Mnemonic → TargetKind
  | .hlt | .nop => .none
  | .adds | .subs | .muls | .divs | .mods | .cmps | .ror | .rol | .not => .selfReferential
  | .lda | .sta | .add | .sub | .mul | .div | .mod | .out | .jmp | .jeq | .jlt => .addressed
  | .oua | .inp | .ina | .and | .or | .xor | .adb | .shr | .shl | .cmp => .addressed

/-- The state after the operand of an entry is formed: an addressed entry reads the word at its address, which grows
memory (R103, 20_memory.md R52); the other kinds touch nothing. -/
def State.formOperand (m : Mnemonic) (a : Nat) (s : State) : State :=
  match targetKind m with
  | .addressed => s.touch a
  | .selfReferential => s
  | .none => s

/-- `target`: the raw W-bit word at the address (R103). -/
def State.target (a : Nat) (s : State) : Nat := Memory.read s.mem a

/-- toSigned(target), where a rule uses the target as a number (D3, log 9). -/
def State.signedTarget (a : Nat) (s : State) : Int := toSigned s.width (s.target a)

end Sys2Proof.Machine
end

