-- ==== Sys2Proof/Machine/Arithmetic.lean ====
section
/-! DEFINITION. The arithmetic family (42_arithmetic.md). Each rule's value is written as its pseudocode gives it. -/

namespace Sys2Proof.Machine

/-- ADD (R150). -/
def execAdd (a : Nat) (s : State) : Result State :=
  .next ((s.formOperand .add a).finishAcc (reduceToRange s.width (s.acc + s.signedTarget a)))

/-- SUB (R151). -/
def execSub (a : Nat) (s : State) : Result State :=
  .next ((s.formOperand .sub a).finishAcc (reduceToRange s.width (s.acc - s.signedTarget a)))

/-- MUL (R152). -/
def execMul (a : Nat) (s : State) : Result State :=
  .next ((s.formOperand .mul a).finishAcc (reduceToRange s.width (s.acc * s.signedTarget a)))

/-- DIV (R153). -/
def execDiv (a : Nat) (s : State) : Result State :=
  .next ((s.formOperand .div a).finishAcc
    (divValue s.width s.cfg.divRounding s.acc (s.signedTarget a)))

/-- MOD (R154). -/
def execMod (a : Nat) (s : State) : Result State :=
  .next ((s.formOperand .mod a).finishAcc (modValue s.cfg.divRounding s.acc (s.signedTarget a)))

/-- ADDS (R160). -/
def execAdds (imm : Nat) (s : State) : Result State :=
  .next ((s.formOperand .adds imm).finishAcc (reduceToRange s.width (s.acc + imm)))

/-- SUBS (R161). -/
def execSubs (imm : Nat) (s : State) : Result State :=
  .next ((s.formOperand .subs imm).finishAcc (reduceToRange s.width (s.acc - imm)))

/-- MULS (R162). -/
def execMuls (imm : Nat) (s : State) : Result State :=
  .next ((s.formOperand .muls imm).finishAcc (reduceToRange s.width (s.acc * imm)))

/-- DIVS (R163). -/
def execDivs (imm : Nat) (s : State) : Result State :=
  .next ((s.formOperand .divs imm).finishAcc (divImmValue s.cfg.divRounding s.acc imm))

/-- MODS (R164). -/
def execMods (imm : Nat) (s : State) : Result State :=
  .next ((s.formOperand .mods imm).finishAcc (modValue s.cfg.divRounding s.acc imm))

/-- ADB (R170): the modulo add of the two bit patterns, read back as a signed value (C2, D5, log 10). -/
def execAdb (a : Nat) (s : State) : Result State :=
  .next ((s.formOperand .adb a).finishAcc
    (toSigned s.width ((s.accBits + s.target a) % 2 ^ s.width)))

end Sys2Proof.Machine
end

