-- ==== Sys2Proof/Machine/Flags.lean ====
section
/-! DEFINITION. The core has no flags (10_state.md R32). What other machines keep in flags, JEQ and JLT test on ACC
directly (43_control.md R181). -/

namespace Sys2Proof.Machine

/-- "`JEQ` PC←addr if ACC=0" (R183). -/
def State.accIsZero (s : State) : Bool := decide (s.acc = 0)

/-- "`JLT` PC←addr if ACC<0", the signed test (R184). -/
def State.accIsNegative (s : State) : Bool := decide (s.acc < 0)

end Sys2Proof.Machine
end

