-- ==== Sys2Proof/Machine/Control.lean ====
section
/-! DEFINITION. Control (43_control.md), and the two words without a catalogue entry (60_exceptions.md R260). -/

namespace Sys2Proof.Machine

/-- HLT (R180): `status <- Halted`; PC, ACC and Mem unchanged. -/
def execHlt (a : Nat) (s : State) : Result State :=
  .next (s.formOperand .hlt a).halt

/-- JMP (R182): `PC <- address`, the address field (C8); the target word is read and not used (D2, log 6). -/
def execJmp (a : Nat) (s : State) : Result State :=
  .next ((s.formOperand .jmp a).jump a)

/-- JEQ (R183). -/
def execJeq (a : Nat) (s : State) : Result State :=
  .next (if s.accIsZero then (s.formOperand .jeq a).jump a else (s.formOperand .jeq a).advance)

/-- JLT (R184). -/
def execJlt (a : Nat) (s : State) : Result State :=
  .next (if s.accIsNegative then (s.formOperand .jlt a).jump a else (s.formOperand .jlt a).advance)

/-- NOP (R185). -/
def execNop (a : Nat) (s : State) : Result State :=
  .next (s.formOperand .nop a).advance

/-- Opcode 30 has no entry: InvalidOpcode is taken before any operand is formed (R260, R262). -/
def execInvalid30 (_ : Nat) (s : State) : Result State :=
  .next (s.takeInvalidOpcode 30)

/-- Opcode 31 has no entry: InvalidOpcode is taken (R260). -/
def execInvalid31 (_ : Nat) (s : State) : Result State :=
  .next (s.takeInvalidOpcode 31)

end Sys2Proof.Machine
end

