-- ==== Sys2Proof/Machine/Io.lean ====
section
/-! DEFINITION. Input and output (44_io.md): the text formats, the provider's answers, and OUT, OUA, INP, INA. -/

namespace Sys2Proof.Machine

/-! ### The text OUT appends (R200) -/

/-- The decimal digits of n before the digits already found, most significant first. The fuel bounds the number of
digits still to find. -/
def digitsOnto : Nat → Nat → Text → Text
  | 0, _, found => found
  | fuel + 1, n, found =>
    if n < 10 then (48 + n) :: found else digitsOnto fuel (n / 10) ((48 + n % 10) :: found)

/-- The digits of n with no leading zeros, "0" for zero; a number has at most as many decimal digits as bits. -/
def digits (n : Nat) : Text := digitsOnto (Nat.log2 n + 1) n []

/-- `decimal(n)`: a leading "-" (code 45) if n < 0, then the digits of |n| (R200; D22, log 16). -/
def decimal (n : Int) : Text :=
  if n < 0 then 45 :: digits n.natAbs else digits n.natAbs

/-! ### The text OUA appends (R201) -/

/-- The group that stands j places after the most significant one, g_(n−1−j) of R201. -/
def ouaGroup (align : GroupAlign) (W : Nat) (u : Nat) (j : Nat) : Nat :=
  match align with
  | .lsb =>
    let k := (W + 7) / 8 - 1 - j
    bitField u (min (8 * k + 7) (W - 1)) (8 * k)
  | .msb => bitField u (W - 1 - 8 * j) (W - 8 * (j + 1))

/-- The n = ⌈W/8⌉ groups, most significant first, zero groups dropped (R201; D11, D25, logs 5 and 17). -/
def ouaText (align : GroupAlign) (W : Nat) (u : Nat) : Text :=
  ((List.range ((W + 7) / 8)).map (ouaGroup align W u)).filter (fun g => decide (g ≠ 0))

/-! ### The input provider (R210 to R215) -/

/-- White space of the batch parse: codes 9 to 13 and 32. DESIGN CHOICE, unsafe (log 19). -/
def isSpace (c : Nat) : Bool := decide (c = 32) || (decide (9 ≤ c) && decide (c ≤ 13))

/-- A decimal digit. -/
def isDigit (c : Nat) : Bool := decide (48 ≤ c) && decide (c ≤ 57)

/-- A line without the white space around it. -/
def trim (line : Text) : Text :=
  ((line.dropWhile isSpace).reverse.dropWhile isSpace).reverse

/-- The value of one or more decimal digits; none for anything else. -/
def parseDigits (t : Text) : Option Nat :=
  if t ≠ [] ∧ t.all isDigit then some (t.foldl (fun n c => 10 * n + (c - 48)) 0) else none

/-- The batch parse of a line: an optional sign (codes 45 and 43) and digits; 0 for anything else (R214; D13, log 18). -/
def parseInteger (line : Text) : Int :=
  match trim line with
  | 45 :: ds => (parseDigits ds).elim 0 (fun n => -(n : Int))
  | 43 :: ds => (parseDigits ds).elim 0 (fun n => (n : Int))
  | ds => (parseDigits ds).elim 0 (fun n => (n : Int))

/-- The characters a word has room for: floor(W/8) (R212). -/
def charsPerWord (W : Nat) : Nat := W / 8

/-- A string requestAsciiString() may answer: "up to `floor(W/8)` 7-bit-ASCII characters" (R212). -/
def validAscii (W : Nat) (t : Text) : Bool :=
  decide (t.length ≤ charsPerWord W) && t.all (fun c => decide (c ≤ 127))

/-- `InInt()`: the answer and the provider after it; none while the host has not answered (R210, R211, R214). -/
def Provider.takeInteger : Provider → Option (Int × Provider)
  | .interactive [] _ => none
  | .interactive (n :: ns) ts => some (n, .interactive ns ts)
  | .batch [] => some (0, .batch [])
  | .batch (line :: ls) => some (parseInteger line, .batch ls)

/-- `InAscii()`: the answer and the provider after it; none while the host has not answered. Interactive strings are
asked again "until valid" (R212); a batch line gives its first floor(W/8) characters, "non-ASCII bytes (>127) zeroed",
and a non-empty remainder goes back to the head (R215). -/
def Provider.takeAscii (W : Nat) : Provider → Option (Text × Provider)
  | .interactive ns ts =>
    match ts.dropWhile (fun t => !validAscii W t) with
    | [] => none
    | t :: rest => some (t, .interactive ns rest)
  | .batch [] => some ([], .batch [])
  | .batch (line :: ls) =>
    let taken := (line.take (charsPerWord W)).map (fun c => if 127 < c then 0 else c)
    match line.drop (charsPerWord W) with
    | [] => some (taken, .batch ls)
    | c :: rest => some (taken, .batch ((c :: rest) :: ls))

/-- Whether the provider has an answer to a request. -/
def Provider.canAnswer (W : Nat) (p : Provider) : Request → Bool
  | .integer => p.takeInteger.isSome
  | .asciiString => (p.takeAscii W).isSome

/-- Characters "packed little-endian byte order into one word": the sum of b_i · 2^(8i) (R203; D12, log 17). -/
def packAscii : Text → Nat
  | [] => 0
  | b :: bs => b + 2 ^ 8 * packAscii bs

/-- The state while an INP or INA waits: the request is in progress and the instruction has had no effect (R211; the
spec's decision D21, log 22). -/
def State.await (r : Request) (s : State) : State := { s with request := some r }

/-- How a step ends that began in `before` and whose instruction left `after`: where that waits on the host the step has
no effect, not the fetch's either, but the request (R211, D21, log 22); otherwise it is complete. -/
def State.settle (before after : State) : State :=
  match after.request with
  | none => after
  | some r => before.await r

/-- The state once the host has answered: the request is over, and a stop() asked for while it was in progress takes
effect with the step's completion (40_step_engine.md R125; log 25). -/
def State.answered (p : Provider) (s : State) : State :=
  { s with
    input := p
    request := none
    stopPending := false
    status := if s.stopPending && decide (s.status = .running) then .idle else s.status }

/-- "result stored into Accumulator if `address == 0`, else into Memory at `address`" (R202): ACC takes v, memory takes
the word w. -/
def State.storeInput (a : Nat) (v : Int) (w : Nat) (s : State) : State :=
  if a = 0 then s.setAcc v else s.memWrite a w

/-! ### The instructions -/

/-- OUT (R200): the signed decimal of the target and a newline (code 10). -/
def execOut (a : Nat) (s : State) : Result State :=
  .next ((s.formOperand .out a).emit (decimal (s.signedTarget a) ++ [10])).advance

/-- OUA (R201). -/
def execOua (a : Nat) (s : State) : Result State :=
  .next ((s.formOperand .oua a).emit (ouaText s.cfg.ouaGroupAlign s.width (s.target a))).advance

/-- INP (R202). -/
def execInp (a : Nat) (s : State) : Result State :=
  match s.input.takeInteger with
  | none => .next (s.await .integer)
  | some (n, p) =>
    let v := reduceToRange s.width n
    .next (((s.formOperand .inp a).answered p).storeInput a v (toUnsigned s.width v)).advance

/-- INA (R203). -/
def execIna (a : Nat) (s : State) : Result State :=
  match s.input.takeAscii s.width with
  | none => .next (s.await .asciiString)
  | some (t, p) =>
    let w := packAscii t
    .next (((s.formOperand .ina a).answered p).storeInput a (toSigned s.width w) w).advance

end Sys2Proof.Machine
end

