-- ==== Sys2Proof/Machine/LoadStore.lean ====
section
/-! DEFINITION. LDA and STA (41_load_store.md). -/

namespace Sys2Proof.Machine

/-- LDA (R140): ACC <- toSigned(target). -/
def execLda (a : Nat) (s : State) : Result State :=
  .next ((s.formOperand .lda a).finishAcc (s.signedTarget a))

/-- STA (R141): MemWrite(address, toUnsigned(ACC)). -/
def execSta (a : Nat) (s : State) : Result State :=
  .next ((s.formOperand .sta a).memWrite a s.accBits).advance

end Sys2Proof.Machine
end

