-- ==== Sys2Proof/Machine/Logic.lean ====
section
/-! DEFINITION. Logic, shift, rotate and compare (45_logic_shift_compare.md): a W-bit result r of acc bits, written as
ACC <- toSigned(r) (D9, log 14). -/

namespace Sys2Proof.Machine

/-- ACC <- toSigned(r); PC <- PC + 1. -/
def State.finishBits (r : Nat) (s : State) : State := s.finishAcc (toSigned s.width r)

/-- AND (R230). -/
def execAnd (a : Nat) (s : State) : Result State :=
  .next ((s.formOperand .and a).finishBits (s.accBits &&& s.target a))

/-- OR (R231). -/
def execOr (a : Nat) (s : State) : Result State :=
  .next ((s.formOperand .or a).finishBits (s.accBits ||| s.target a))

/-- XOR (R232). -/
def execXor (a : Nat) (s : State) : Result State :=
  .next ((s.formOperand .xor a).finishBits (s.accBits ^^^ s.target a))

/-- NOT (R233): the full-width complement; the address field is ignored (D8, log 13). -/
def execNot (imm : Nat) (s : State) : Result State :=
  .next ((s.formOperand .not imm).finishBits (complement s.width s.accBits))

/-- SHR (R240): by the address field (C5, D6, log 11). -/
def execShr (k : Nat) (s : State) : Result State :=
  .next ((s.formOperand .shr k).finishBits (shiftRight s.width s.accBits k))

/-- SHL (R241): by the address field (C5, D6, log 11). -/
def execShl (k : Nat) (s : State) : Result State :=
  .next ((s.formOperand .shl k).finishBits (shiftLeft s.width s.accBits k))

/-- ROR (R242): acc bits rotated by the address field mod W (D7, log 11). -/
def execRor (imm : Nat) (s : State) : Result State :=
  .next ((s.formOperand .ror imm).finishBits (rotateRight s.width s.accBits imm))

/-- ROL (R243): "treat as deliberately unimplemented (no-op)" (C7). -/
def execRol (imm : Nat) (s : State) : Result State :=
  .next (s.formOperand .rol imm).advance

/-- CMP (R250): equality of the W-bit patterns (D10, log 15). -/
def execCmp (a : Nat) (s : State) : Result State :=
  .next ((s.formOperand .cmp a).finishAcc (truth (decide (s.accBits = s.target a))))

/-- CMPS (R251): equality as integers (D10, log 15). -/
def execCmps (imm : Nat) (s : State) : Result State :=
  .next ((s.formOperand .cmps imm).finishAcc (truth (decide (s.acc = imm))))

end Sys2Proof.Machine
end

