-- ==== Sys2Proof/Machine/Dispatch.lean ====
section
/-! DEFINITION. The dispatch, one arm per constructor of Instr (40_step_engine.md R104). -/

namespace Sys2Proof.Machine

def exec (i : Instr) (s : State) : Host.Outcome State Fault Refusal :=
  match i with
  | .hlt a => Sys2Proof.Machine.execHlt a s
  | .lda a => Sys2Proof.Machine.execLda a s
  | .sta a => Sys2Proof.Machine.execSta a s
  | .add a => Sys2Proof.Machine.execAdd a s
  | .sub a => Sys2Proof.Machine.execSub a s
  | .mul a => Sys2Proof.Machine.execMul a s
  | .div a => Sys2Proof.Machine.execDiv a s
  | .mod a => Sys2Proof.Machine.execMod a s
  | .out a => Sys2Proof.Machine.execOut a s
  | .jmp a => Sys2Proof.Machine.execJmp a s
  | .jeq a => Sys2Proof.Machine.execJeq a s
  | .jlt a => Sys2Proof.Machine.execJlt a s
  | .oua a => Sys2Proof.Machine.execOua a s
  | .inp a => Sys2Proof.Machine.execInp a s
  | .ina a => Sys2Proof.Machine.execIna a s
  | .nop a => Sys2Proof.Machine.execNop a s
  | .adds a => Sys2Proof.Machine.execAdds a s
  | .subs a => Sys2Proof.Machine.execSubs a s
  | .muls a => Sys2Proof.Machine.execMuls a s
  | .divs a => Sys2Proof.Machine.execDivs a s
  | .mods a => Sys2Proof.Machine.execMods a s
  | .and a => Sys2Proof.Machine.execAnd a s
  | .or a => Sys2Proof.Machine.execOr a s
  | .xor a => Sys2Proof.Machine.execXor a s
  | .not a => Sys2Proof.Machine.execNot a s
  | .adb a => Sys2Proof.Machine.execAdb a s
  | .shr a => Sys2Proof.Machine.execShr a s
  | .shl a => Sys2Proof.Machine.execShl a s
  | .ror a => Sys2Proof.Machine.execRor a s
  | .rol a => Sys2Proof.Machine.execRol a s
  | .cmp a => Sys2Proof.Machine.execCmp a s
  | .cmps a => Sys2Proof.Machine.execCmps a s
  | .invalid30 a => Sys2Proof.Machine.execInvalid30 a s
  | .invalid31 a => Sys2Proof.Machine.execInvalid31 a s

end Sys2Proof.Machine
end

