-- ==== Sys2Proof/Machine/Step.lean ====
section
/-! DEFINITION. One step of the engine (40_step_engine.md R107). -/

namespace Sys2Proof.Machine

/-- step() (R107): in Halted nothing (R121); otherwise fetch, decode, and the instruction's meaning, or InvalidOpcode
where the decoder finds no entry (R102). A step whose instruction waits on input leaves the request alone, and the host's
answer completes it (44_io.md R211, log 22; Engine.lean). -/
def step (s : State) : Host.Outcome State Fault Refusal :=
  match s.status with
  | .halted => .next s
  | .idle | .running =>
    match Sys2Proof.decode s.cfg s.fetch.1 with
    | .ok i =>
      match exec i s.begun.fetch.2 with
      | .next t => .next (s.settle t)
      | .fault f => .fault f
      | .refused r => .refused r
    | .error (.invalidOpcode op) => .next (s.begun.fetch.2.takeInvalidOpcode op)

/-- The instruction at PC, if it has an entry or a row of the table. -/
def State.current (s : State) : Option Instr := (Sys2Proof.decode s.cfg s.fetch.1).toOption

/-- The state with the table-numbered word stored at PC and, should the engine be Halted, Idle, so that the very next
step runs it (log 33). -/
def State.withFetchWord (s : State) (nbits w : Nat) : State :=
  { s.memWrite s.pc (wordOfTable s.cfg nbits w) with
    status := match s.status with
      | .halted => .idle
      | st => st }

end Sys2Proof.Machine
end

