-- ==== Sys2Proof/Machine/Engine.lean ====
section
/-! DEFINITION. What the host does to the engine between steps (60_exceptions.md R272, 40_step_engine.md R120 to R125,
70_reset_and_hazards.md R292, 44_io.md R210 to R213). reset() and New stand in Ops.lean. -/

namespace Sys2Proof.Machine

/-- run(frequencyHz) (40_step_engine.md R123): from Idle the loop starts, while Running only the frequency changes, in
Halted nothing (R121). A frequency that is not positive breaks the host's duty and changes nothing, and while a step
begun in Idle waits on input the engine is Running at once and the step waits on: DESIGN CHOICE, unsafe (log 28). -/
def State.run (f : Rat) (s : State) : State :=
  if 0 < f.num then
    match s.status with
    | .idle => { s with status := .running, frequencyHz := f }
    | .running => { s with frequencyHz := f }
    | .halted => s
  else s

/-- stop() (R125): from Running to Idle; "stop() while Idle or Halted changes nothing"; while a step waits on input it
takes effect after that step. -/
def State.stop (s : State) : State :=
  match s.status with
  | .running => if s.request.isSome then { s with stopPending := true } else { s with status := .idle }
  | .idle => s
  | .halted => s

/-- A step the run loop scheduled: it runs while the engine is Running; stop() and a false step clear it (R124, R125).
When it runs is the host's (log 36). -/
def State.scheduledStep (s : State) : Result State :=
  match s.status with
  | .running => step s
  | .idle | .halted => .next s

/-- n scheduled steps of the run loop, each from the state the one before left (R124). -/
def State.runLoop : Nat → State → Result State
  | 0, s => .next s
  | n + 1, s =>
    match s.scheduledStep with
    | .next t => State.runLoop n t
    | .fault f => .fault f
    | .refused r => .refused r

/-- The host's choice of the input mode and of what the provider holds (44_io.md R213, R214). While a request is in
progress it changes nothing: DESIGN CHOICE, unsafe (log 24). -/
def State.configureInput (p : Provider) (s : State) : State :=
  match s.request with
  | none => { s with input := p }
  | some _ => s

/-- The host's answer to requestInteger(): any integer (R210). The suspended step "completes when the answer arrives"
(40_step_engine.md R108), in this one operation. Without that request in progress nothing is asked and nothing changes
(log 23). -/
def State.answerInteger (n : Int) (s : State) : Result State :=
  match s.request, s.input with
  | some .integer, .interactive ns ts => step { s with input := .interactive (ns ++ [n]) ts }
  | some .integer, .batch _ => .next s
  | some .asciiString, _ => .next s
  | none, _ => .next s

/-- The host's answer to requestAsciiString(): a valid one completes the suspended step, any other is asked again
(R212, 40_step_engine.md R108). -/
def State.answerAscii (t : Text) (s : State) : Result State :=
  match s.request, s.input with
  | some .asciiString, .interactive ns ts =>
    if validAscii s.width t then step { s with input := .interactive ns (ts ++ [t]) } else .next s
  | some .asciiString, .batch _ => .next s
  | some .integer, _ => .next s
  | none, _ => .next s

/-- What a saved file holds: O, W, PC, ACC and one word per memory word in address order (10_state.md R20). -/
structure Snapshot where
  opcodeWidth : OpcodeWidth
  wordWidth : Nat
  pc : Nat
  acc : Int
  words : List Nat
deriving DecidableEq, Repr

/-- The memory whose words from an index on are the listed ones. -/
def Memory.ofWords : Nat → List Nat → Memory
  | _, [] => []
  | a, w :: ws => Memory.write a w (Memory.ofWords (a + 1) ws)

/-- save(): the snapshot of the state (R20, 60_exceptions.md R272). -/
def State.save (s : State) : Snapshot where
  opcodeWidth := s.cfg.opcodeWidth
  wordWidth := s.cfg.wordWidth
  pc := s.pc
  acc := s.acc
  words := (List.range s.memLen).map (Memory.read s.mem)

/-- load(): on success "full replacement" of W, O, PC, ACC and Memory, and Idle; on ParseError (none) "no mutation of
existing state" (70_reset_and_hazards.md R292, 10_state.md R35). The text format is out of scope (00_scope.md R5).
While Running the host has no such move (R297; log 29). A step begun in Idle that waits on input is dropped, with its
request and a stop() held back: DESIGN CHOICE, unsafe, the spec does not say what becomes of it (log 26). -/
def State.load (file : Option Snapshot) (s : State) : State :=
  match file, s.status with
  | some f, .idle | some f, .halted =>
    { s with
      cfg := { s.cfg with wordWidth := f.wordWidth, opcodeWidth := f.opcodeWidth }
      pc := f.pc
      acc := f.acc
      mem := Memory.ofWords 0 f.words
      memLen := f.words.length
      status := .idle
      request := none
      stopPending := false }
  | some _, .running => s
  | none, _ => s

end Sys2Proof.Machine
end

