-- ==== Sys2Proof/Safety.lean ====
section
/-! DEFINITION. The terms claims are stated in: the machine's invariant, the W-bit patterns the ALU works on, and the
words a catalogue gives a mnemonic. -/

namespace Sys2Proof

/-- The words of a mnemonic (30_encoding.md R70, R71, R78): under every legal configuration whose catalogue gives m the
index k, the word of opcode k and address field a is the instruction m with address field a. -/
def CatalogueOpcode (m : Mnemonic) : Prop :=
  ∀ (cfg : Config) (k a : Nat), cfg.legal → k < 2 ^ cfg.opcodeWidth.bits → cfg.catalogue[k]? = some m →
    a < 2 ^ (cfg.wordWidth - cfg.opcodeWidth.bits) →
    decode cfg (k * 2 ^ (cfg.wordWidth - cfg.opcodeWidth.bits) + a) = .ok (Instr.ofMnemonic a m)

/-- The default catalogue gives the mnemonic m the opcode index k (30_encoding.md R76; the spec's decision D1, log 3):
at every W and every O whose opcode field can hold k, the word of opcode k and address field a is m with address field
a. -/
def DefaultOpcode (m : Mnemonic) (k : Nat) : Prop :=
  ∀ (W : Nat) (O : OpcodeWidth) (a : Nat), 8 ≤ W → W ≤ 64 → k < 2 ^ O.bits → a < 2 ^ (W - O.bits) →
    decode (Config.standard W O) (k * 2 ^ (W - O.bits) + a) = .ok (Instr.ofMnemonic a m)

/-- The request an instruction makes of the host: INP an integer, INA a string (44_io.md R210, R212). -/
def Instr.asks : Instr → Option Machine.Request
  | .inp _ => some .integer
  | .ina _ => some .asciiString
  | _ => none

end Sys2Proof

namespace Sys2Proof.Machine

/-- Every listed word is a W-bit word below the current length (10_state.md R26, 20_memory.md R53). -/
abbrev State.wordsFit (s : State) : Prop :=
  ∀ c ∈ s.mem, c.2 < 2 ^ s.cfg.wordWidth ∧ c.1 < s.memLen

/-- A request in progress is the one of the instruction at PC, the engine is not Halted, and the host has not answered:
no state lies between an answer and the completion of its step (R34, 40_step_engine.md R108, 44_io.md R211). -/
abbrev State.requestFits (s : State) : Prop :=
  s.request = none ∨
    (s.request = s.current.bind Instr.asks ∧ s.status ≠ .halted ∧
      s.request.any (s.input.canAnswer s.cfg.wordWidth) = false)

/-- A stop() is only held back while the engine runs and a step waits on input (40_step_engine.md R125). -/
abbrev State.stopFits (s : State) : Prop :=
  s.stopPending = true → s.request ≠ none ∧ s.status = .running

/-- The machine's invariant: legal parameters (R6, R7, R77), ACC in the canonical range (10_state.md R23), memory in
canonical form and of W-bit words (R26), at least 16 words long (R27), a positive frequency (R29), and the two clauses
on a waiting step. -/
abbrev State.Inv (s : State) : Prop :=
  s.cfg.legal ∧ canonical s.cfg.wordWidth s.acc ∧ s.mem.wf ∧ s.wordsFit ∧ 16 ≤ s.memLen ∧
    0 < s.frequencyHz.num ∧ s.requestFits ∧ s.stopFits

/-- acc bits as a bit vector of the machine's width. -/
def State.accVec (s : State) : BitVec s.cfg.wordWidth := BitVec.ofInt s.cfg.wordWidth s.acc

/-- The word at an index as a bit vector of the machine's width. -/
def State.wordVec (s : State) (a : Nat) : BitVec s.cfg.wordWidth :=
  BitVec.ofNat s.cfg.wordWidth (Memory.read s.mem a)

/-- The value of a text of decimal digits, most significant first. -/
def digitValue (t : Text) : Nat := t.foldl (fun n c => 10 * n + (c - 48)) 0

end Sys2Proof.Machine
end

