-- ==== Sys2Proof/Certificates/Slice0/Obligations.lean ====
section
/-! DEFINITION. The statements for the provers, from the spec's numbered rules. Where a next state is written as a record
update, every field it does not name is unchanged: the record IS the frame. `memLen := n` for some n, and
`memLen := t.memLen`, say nothing of the length there; OperandAccessGrowsMemory says what it is. -/

open Sys2Proof Sys2Proof.Machine

/-! ### Encoding and decoding (30_encoding.md) -/

/-- R70: the opcode is bits W−1..AW of the word and the address is bits AW−1..0. -/
def Obligations.DecodeSplitsWordIntoFields : Prop :=
  ∀ (cfg : Config) (w : Nat), cfg.legal → w < 2 ^ cfg.wordWidth →
    (∀ i, (addressField cfg w).testBit i = (decide (i < cfg.wordWidth - cfg.opcodeWidth.bits) && w.testBit i)) ∧
    (∀ i, (opcodeField cfg w).testBit i = w.testBit (cfg.wordWidth - cfg.opcodeWidth.bits + i)) ∧
    opcodeField cfg w < 2 ^ cfg.opcodeWidth.bits ∧
    addressField cfg w < 2 ^ (cfg.wordWidth - cfg.opcodeWidth.bits)

/-- The round-trip law of the two fields and its converse (30_encoding.md section 1, R73; the spec marks the converse as
its own inference). -/
def Obligations.FieldsRoundTrip : Prop :=
  ∀ (cfg : Config), cfg.legal →
    (∀ op a, op < 2 ^ cfg.opcodeWidth.bits → a < 2 ^ cfg.addressWidth →
      encodeFields cfg op a < 2 ^ cfg.wordWidth ∧
      opcodeField cfg (encodeFields cfg op a) = op ∧ addressField cfg (encodeFields cfg op a) = a) ∧
    (∀ w, w < 2 ^ cfg.wordWidth → encodeFields cfg (opcodeField cfg w) (addressField cfg w) = w)

/-- Decoding the encoded word of any well-formed instruction gives it back, under every legal configuration and so
under every catalogue of R77. -/
def Obligations.DecodeOfEncodeIsIdentity : Prop :=
  ∀ (cfg : Config) (i : Instr), cfg.legal → WellFormed cfg i = true →
    ∃ w, encode cfg i = some w ∧ w < 2 ^ cfg.wordWidth ∧ decode cfg w = .ok i

/-- Every W-bit word decodes to one instruction, whose encoding is the word. That the words of opcode 30 and 31, for which
lookup fails (30_encoding.md R78, R79), are instructions too is the model's own choice (log 34): their meaning is to take
InvalidOpcode. -/
def Obligations.EncodeOfDecodeIsIdentity : Prop :=
  ∀ (cfg : Config) (w : Nat), cfg.legal → w < 2 ^ cfg.wordWidth →
    ∃ i, decode cfg w = .ok i ∧ WellFormed cfg i = true ∧ encode cfg i = some w

/-- R78: lookup fails exactly for an index of 2^O or more or one without an entry; under a legal catalogue the indices
with an entry are 0..29. -/
def Obligations.LookupFailsOutsideCatalogue : Prop :=
  ∀ (cfg : Config) (op : Nat),
    (lookup cfg op = none ↔ 2 ^ cfg.opcodeWidth.bits ≤ op ∨ cfg.catalogue[op]? = none) ∧
    (∀ m, lookup cfg op = some m → cfg.catalogue[op]? = some m) ∧
    (cfg.legal → (lookup cfg op = none ↔ 2 ^ cfg.opcodeWidth.bits ≤ op ∨ 30 ≤ op))

/-- R79: under every legal configuration the words without an entry are exactly those of opcode 30 and 31 under O = 5;
under O = 4 there is none. -/
def Obligations.InvalidWordsAreOpcodes30And31 : Prop :=
  ∀ (cfg : Config) (w a : Nat), cfg.legal → w < 2 ^ cfg.wordWidth →
    (decode cfg w = .ok (.invalid30 a) ↔
      cfg.opcodeWidth = .five ∧ w / 2 ^ (cfg.wordWidth - 5) = 30 ∧ a = w % 2 ^ (cfg.wordWidth - 5)) ∧
    (decode cfg w = .ok (.invalid31 a) ↔
      cfg.opcodeWidth = .five ∧ w / 2 ^ (cfg.wordWidth - 5) = 31 ∧ a = w % 2 ^ (cfg.wordWidth - 5))

/-- Catalogue index 8 is OUT, under every legal configuration (30_encoding.md R75 item 3, R77), for every address. -/
def Obligations.OpcodeEightIsOut : Prop :=
  ∀ (cfg : Config) (a : Nat), cfg.legal → a < 2 ^ (cfg.wordWidth - cfg.opcodeWidth.bits) →
    decode cfg (8 * 2 ^ (cfg.wordWidth - cfg.opcodeWidth.bits) + a) = .ok (.out a)

/-- Words of 30_encoding.md R74, R76 and 95_test_vectors.md 2.2 decode to the instructions they stand for. A sanity
statement; the indices are the spec's default (D1, log 3). -/
def Obligations.WrittenWordsDecode : Prop :=
  decode (Config.standard 16 .four) 0x1006 = .ok (.lda 6) ∧
  decode (Config.standard 16 .four) 0xFFFF = .ok (.nop 4095) ∧
  decode (Config.standard 16 .five) 0xFFFF = .ok (.invalid31 2047) ∧
  decode (Config.standard 16 .five) 0xF7FF = .ok (.invalid30 2047) ∧
  decode (Config.standard 16 .five) 0xE800 = .ok (.rol 0) ∧
  decode (Config.standard 8 .four) 0x87 = .ok (.out 7) ∧
  decode (Config.standard 8 .five) 0x87 = .ok (.adds 7) ∧
  decode (Config.standard 8 .five) 0xDA = .ok (.shl 2) ∧
  decode (Config.standard 64 .four) 0x1000000000000005 = .ok (.lda 5)

/-- The default opcode indices (30_encoding.md R76, the spec's decision D1, log 3), at every W and every O. -/
def Obligations.DefaultCatalogueIndices : Prop :=
  (DefaultOpcode .hlt 0 ∧ DefaultOpcode .lda 1 ∧ DefaultOpcode .sta 2 ∧ DefaultOpcode .add 3 ∧ DefaultOpcode .sub 4 ∧
    DefaultOpcode .mul 5 ∧ DefaultOpcode .div 6 ∧ DefaultOpcode .mod 7 ∧ DefaultOpcode .out 8 ∧ DefaultOpcode .jmp 9) ∧
  (DefaultOpcode .jeq 10 ∧ DefaultOpcode .jlt 11 ∧ DefaultOpcode .oua 12 ∧ DefaultOpcode .inp 13 ∧
    DefaultOpcode .ina 14 ∧ DefaultOpcode .nop 15 ∧ DefaultOpcode .adds 16 ∧ DefaultOpcode .subs 17 ∧
    DefaultOpcode .muls 18 ∧ DefaultOpcode .divs 19) ∧
  (DefaultOpcode .mods 20 ∧ DefaultOpcode .and 21 ∧ DefaultOpcode .or 22 ∧ DefaultOpcode .xor 23 ∧
    DefaultOpcode .not 24 ∧ DefaultOpcode .adb 25 ∧ DefaultOpcode .shr 26 ∧ DefaultOpcode .shl 27 ∧
    DefaultOpcode .ror 28 ∧ DefaultOpcode .rol 29)

/-! ### The two's-complement unit (00_scope.md) -/

/-- R14 and R15: the two conversions, their ranges, and that they are inverse bijections, at every W. -/
def Obligations.TwosComplementConversionsAreInverse : Prop :=
  ∀ W, 8 ≤ W → W ≤ 64 →
    (∀ u : Nat, u < 2 ^ W →
      toSigned W u = (if (u : Int) > 2 ^ (W - 1) - 1 then (u : Int) - 2 ^ W else u) ∧
      canonical W (toSigned W u) ∧ toUnsigned W (toSigned W u) = u) ∧
    (∀ x : Int, canonical W x →
      (toUnsigned W x : Int) = (if x < 0 then x + 2 ^ W else x) ∧
      toUnsigned W x < 2 ^ W ∧ toSigned W (toUnsigned W x) = x)

/-- R16: reduceToRange gives the unique canonical value congruent to its argument, for every integer, and is
idempotent. -/
def Obligations.ReduceToRangeIsCanonicalRepresentative : Prop :=
  ∀ (W : Nat) (v : Int), 8 ≤ W → W ≤ 64 →
    canonical W (reduceToRange W v) ∧ (2 : Int) ^ W ∣ reduceToRange W v - v ∧
    (∀ x : Int, canonical W x → (2 : Int) ^ W ∣ x - v → x = reduceToRange W v) ∧
    reduceToRange W (reduceToRange W v) = reduceToRange W v

/-! ### Load and store (41_load_store.md) -/

/-- LDA (41_load_store.md, R140): ACC takes the word as a W-bit two's-complement number. That the word is read signed is
the spec's decision D3 (log 9). -/
def Obligations.LdaLoadsSignedWord : Prop :=
  CatalogueOpcode .lda ∧
  ∀ (s : State) (a : Nat), s.Inv →
    exec (.lda a) s = .next { s with
      acc := (s.wordVec a).toInt, pc := s.pc + 1, memLen := max s.memLen (a + 1) }

/-- R141: STA stores toUnsigned(ACC) at its address, every other word of memory and every other field stay. -/
def Obligations.StaStoresAccumulator : Prop :=
  CatalogueOpcode .sta ∧
  ∀ (s : State) (a : Nat), ∃ t : State, exec (.sta a) s = .next t ∧
    Memory.read t.mem a = toUnsigned s.cfg.wordWidth s.acc ∧
    (∀ b, b ≠ a → Memory.read t.mem b = Memory.read s.mem b) ∧
    t = { s with mem := t.mem, pc := s.pc + 1, memLen := t.memLen }

/-! ### Arithmetic (42_arithmetic.md) -/

/-- R150, R151, R152: ADD, SUB and MUL write the exact result reduced into range, and nothing else. -/
def Obligations.AddSubMulReduceExactResult : Prop :=
  CatalogueOpcode .add ∧ CatalogueOpcode .sub ∧ CatalogueOpcode .mul ∧
  ∀ (s : State) (a : Nat), ∃ n : Nat,
    exec (.add a) s = .next { s with
      acc := reduceToRange s.cfg.wordWidth (s.acc + toSigned s.cfg.wordWidth (Memory.read s.mem a))
      pc := s.pc + 1, memLen := n } ∧
    exec (.sub a) s = .next { s with
      acc := reduceToRange s.cfg.wordWidth (s.acc - toSigned s.cfg.wordWidth (Memory.read s.mem a))
      pc := s.pc + 1, memLen := n } ∧
    exec (.mul a) s = .next { s with
      acc := reduceToRange s.cfg.wordWidth (s.acc * toSigned s.cfg.wordWidth (Memory.read s.mem a))
      pc := s.pc + 1, memLen := n }

/-- The integer arithmetic unit and a W-bit datapath are the same machine (42_arithmetic.md sections 1 to 3, 10_state.md
R23): every form, under both roundings, is an operation of the bit vectors acc bits and the word at the address, or the
address field. A quotient under floor, which bit vectors have no operation for, is the pattern of the rounded quotient.
That words are divided as signed numbers rests on the spec's decisions D3 and D4 (logs 4 and 9). -/
def Obligations.ArithmeticIsBitVectorDatapath : Prop :=
  ∀ (s : State) (a : Nat), s.Inv →
    exec (.add a) s = .next { s with
      acc := (s.accVec + s.wordVec a).toInt, pc := s.pc + 1, memLen := max s.memLen (a + 1) } ∧
    exec (.sub a) s = .next { s with
      acc := (s.accVec - s.wordVec a).toInt, pc := s.pc + 1, memLen := max s.memLen (a + 1) } ∧
    exec (.mul a) s = .next { s with
      acc := (s.accVec * s.wordVec a).toInt, pc := s.pc + 1, memLen := max s.memLen (a + 1) } ∧
    (s.cfg.divRounding = .trunc →
      exec (.div a) s = .next { s with
        acc := (s.accVec.sdiv (s.wordVec a)).toInt, pc := s.pc + 1, memLen := max s.memLen (a + 1) } ∧
      exec (.mod a) s = .next { s with
        acc := if s.wordVec a = 0 then 0 else (s.accVec.srem (s.wordVec a)).toInt
        pc := s.pc + 1, memLen := max s.memLen (a + 1) }) ∧
    (s.cfg.divRounding = .floor →
      exec (.div a) s = .next { s with
        acc := (BitVec.ofInt s.cfg.wordWidth (s.accVec.toInt.fdiv (s.wordVec a).toInt)).toInt
        pc := s.pc + 1, memLen := max s.memLen (a + 1) } ∧
      exec (.mod a) s = .next { s with
        acc := if s.wordVec a = 0 then 0 else (s.accVec.smod (s.wordVec a)).toInt
        pc := s.pc + 1, memLen := max s.memLen (a + 1) }) ∧
    exec (.adds a) s = .next { s with
      acc := (s.accVec + BitVec.ofNat s.cfg.wordWidth a).toInt, pc := s.pc + 1 } ∧
    exec (.subs a) s = .next { s with
      acc := (s.accVec - BitVec.ofNat s.cfg.wordWidth a).toInt, pc := s.pc + 1 } ∧
    exec (.muls a) s = .next { s with
      acc := (s.accVec * BitVec.ofNat s.cfg.wordWidth a).toInt, pc := s.pc + 1 } ∧
    (a < 2 ^ (s.cfg.wordWidth - s.cfg.opcodeWidth.bits) →
      (s.cfg.divRounding = .trunc →
        exec (.divs a) s = .next { s with
          acc := (s.accVec.sdiv (BitVec.ofNat s.cfg.wordWidth a)).toInt, pc := s.pc + 1 } ∧
        exec (.mods a) s = .next { s with
          acc := if a = 0 then 0 else (s.accVec.srem (BitVec.ofNat s.cfg.wordWidth a)).toInt, pc := s.pc + 1 }) ∧
      (s.cfg.divRounding = .floor →
        exec (.divs a) s = .next { s with
          acc := (BitVec.ofInt s.cfg.wordWidth (s.accVec.toInt.fdiv a)).toInt, pc := s.pc + 1 } ∧
        exec (.mods a) s = .next { s with
          acc := if a = 0 then 0 else (s.accVec.smod (BitVec.ofNat s.cfg.wordWidth a)).toInt, pc := s.pc + 1 }))

/-- DIV and MOD (42_arithmetic.md section 2, R153, R154): a divisor of 0 writes 0 and the engine goes on; otherwise the
quotient and remainder of the rounding chosen. The divisor is the word read signed, the spec's decision D3 (log 9). -/
def Obligations.DivModWriteQuotientAndRemainder : Prop :=
  CatalogueOpcode .div ∧ CatalogueOpcode .mod ∧
  ∀ (s : State) (a : Nat) (d : Int), toSigned s.cfg.wordWidth (Memory.read s.mem a) = d →
    ∃ q r : Int,
      exec (.div a) s = .next { s with acc := q, pc := s.pc + 1, memLen := max s.memLen (a + 1) } ∧
      exec (.mod a) s = .next { s with acc := r, pc := s.pc + 1, memLen := max s.memLen (a + 1) } ∧
      (d = 0 → q = 0 ∧ r = 0) ∧
      (d ≠ 0 → s.cfg.divRounding = .trunc →
        q = reduceToRange s.cfg.wordWidth (s.acc.tdiv d) ∧ r = s.acc.tmod d) ∧
      (d ≠ 0 → s.cfg.divRounding = .floor →
        q = reduceToRange s.cfg.wordWidth (s.acc.fdiv d) ∧ r = s.acc - d * s.acc.fdiv d)

/-- The laws of DIV and MOD together (42_arithmetic.md section 1, R155): a = d·q + r with |r| < |d|, the sign of r by
the rounding, but for the one quotient that overflows and wraps. The divisor is read signed (D3, log 9). -/
def Obligations.DivModObeyDivisionLaw : Prop :=
  ∀ (s t u : State) (a : Nat) (d : Int), s.Inv → toSigned s.cfg.wordWidth (Memory.read s.mem a) = d → d ≠ 0 →
    exec (.div a) s = .next t → exec (.mod a) s = .next u →
    |u.acc| < |d| ∧
    (s.cfg.divRounding = .trunc → 0 ≤ u.acc * s.acc) ∧
    (s.cfg.divRounding = .floor → 0 ≤ u.acc * d) ∧
    (¬(s.acc = -2 ^ (s.cfg.wordWidth - 1) ∧ d = -1) → s.acc = d * t.acc + u.acc) ∧
    (s.acc = -2 ^ (s.cfg.wordWidth - 1) → d = -1 → t.acc = -2 ^ (s.cfg.wordWidth - 1) ∧ u.acc = 0)

/-- R160, R161, R162: ADDS, SUBS and MULS take the raw address field, read no memory and change nothing but ACC and
PC. -/
def Obligations.ImmediateAddSubMul : Prop :=
  CatalogueOpcode .adds ∧ CatalogueOpcode .subs ∧ CatalogueOpcode .muls ∧
  ∀ (s : State) (imm : Nat),
    exec (.adds imm) s = .next { s with acc := reduceToRange s.cfg.wordWidth (s.acc + imm), pc := s.pc + 1 } ∧
    exec (.subs imm) s = .next { s with acc := reduceToRange s.cfg.wordWidth (s.acc - imm), pc := s.pc + 1 } ∧
    exec (.muls imm) s = .next { s with acc := reduceToRange s.cfg.wordWidth (s.acc * imm), pc := s.pc + 1 }

/-- R163 and R164: DIVS and MODS by the raw address field under both roundings; imm = 0 writes 0. -/
def Obligations.ImmediateDivMod : Prop :=
  CatalogueOpcode .divs ∧ CatalogueOpcode .mods ∧
  ∀ (s : State) (imm : Nat), ∃ q r : Int,
    exec (.divs imm) s = .next { s with acc := q, pc := s.pc + 1 } ∧
    exec (.mods imm) s = .next { s with acc := r, pc := s.pc + 1 } ∧
    (imm = 0 → q = 0 ∧ r = 0) ∧
    (imm ≠ 0 → s.cfg.divRounding = .trunc → q = s.acc.tdiv imm ∧ r = s.acc.tmod imm) ∧
    (imm ≠ 0 → s.cfg.divRounding = .floor →
      q = s.acc.fdiv imm ∧ r = s.acc % (imm : Int) ∧ 0 ≤ r ∧ r < imm)

/-- ADB (42_arithmetic.md section 4, R170) adds the two W-bit patterns modulo 2^W, and so does what ADD does. That the
result is centred is the spec's decision D5 and conflict C2 (log 10). -/
def Obligations.AdbAddsPatternsLikeAdd : Prop :=
  CatalogueOpcode .adb ∧
  ∀ (s : State) (a : Nat), s.Inv →
    exec (.adb a) s = .next { s with
      acc := (s.accVec + s.wordVec a).toInt, pc := s.pc + 1, memLen := max s.memLen (a + 1) } ∧
    exec (.adb a) s = exec (.add a) s

/-! ### Logic, shift, rotate, compare (45_logic_shift_compare.md) -/

/-- AND, OR, XOR and NOT (45_logic_shift_compare.md section 1) are the W-bit operations, and NOT is −ACC − 1. The
write-back as a signed value is the spec's decision D9, NOT's use of ACC D8 (logs 13 and 14). -/
def Obligations.LogicIsBitwiseOnPatterns : Prop :=
  CatalogueOpcode .and ∧ CatalogueOpcode .or ∧ CatalogueOpcode .xor ∧ CatalogueOpcode .not ∧
  ∀ (s : State) (a : Nat), s.Inv →
    exec (.and a) s = .next { s with
      acc := (s.accVec &&& s.wordVec a).toInt, pc := s.pc + 1, memLen := max s.memLen (a + 1) } ∧
    exec (.or a) s = .next { s with
      acc := (s.accVec ||| s.wordVec a).toInt, pc := s.pc + 1, memLen := max s.memLen (a + 1) } ∧
    exec (.xor a) s = .next { s with
      acc := (s.accVec ^^^ s.wordVec a).toInt, pc := s.pc + 1, memLen := max s.memLen (a + 1) } ∧
    exec (.not a) s = .next { s with acc := (~~~s.accVec).toInt, pc := s.pc + 1 } ∧
    exec (.not a) s = .next { s with acc := -s.acc - 1, pc := s.pc + 1 }

/-- SHR and SHL (45_logic_shift_compare.md section 2) shift acc bits by the address field, zero-filled, and give 0 from
W on. The count is the spec's decision D6 and conflict C5 (log 11). -/
def Obligations.ShiftsAreLogicalByAddressField : Prop :=
  CatalogueOpcode .shr ∧ CatalogueOpcode .shl ∧
  ∀ (s : State) (k : Nat), s.Inv →
    exec (.shr k) s = .next { s with
      acc := (s.accVec >>> k).toInt, pc := s.pc + 1, memLen := max s.memLen (k + 1) } ∧
    exec (.shl k) s = .next { s with
      acc := (s.accVec <<< k).toInt, pc := s.pc + 1, memLen := max s.memLen (k + 1) } ∧
    (s.cfg.wordWidth ≤ k → (s.accVec >>> k).toInt = 0 ∧ (s.accVec <<< k).toInt = 0)

/-- ROR (45_logic_shift_compare.md section 2) rotates acc bits right by the address field, and so by it mod W. That ACC
is what is rotated is the spec's decision D7 (log 11). -/
def Obligations.RorRotatesAccumulator : Prop :=
  CatalogueOpcode .ror ∧
  ∀ (s : State) (imm : Nat), s.Inv →
    exec (.ror imm) s = .next { s with acc := (s.accVec.rotateRight imm).toInt, pc := s.pc + 1 } ∧
    exec (.ror imm) s = exec (.ror (imm % s.cfg.wordWidth)) s

/-- R243: ROL advances PC and does nothing else, whatever its address field. -/
def Obligations.RolIsNoOperation : Prop :=
  CatalogueOpcode .rol ∧
  ∀ (s : State) (a : Nat), exec (.rol a) s = .next { s with pc := s.pc + 1 }

/-- CMP and CMPS (45_logic_shift_compare.md section 3) leave 1 or 0 in ACC: CMP by the equality of the W-bit patterns,
which is that of ACC and the signed word, CMPS by integer equality with the raw field (the spec's decision D10, log
15). Neither has an index in the default catalogue. -/
def Obligations.CompareWritesOneOrZero : Prop :=
  CatalogueOpcode .cmp ∧ CatalogueOpcode .cmps ∧
  (∀ (O : OpcodeWidth) (W a : Nat), encode (Config.standard W O) (.cmp a) = none ∧
    encode (Config.standard W O) (.cmps a) = none) ∧
  ∀ (s : State) (a : Nat),
    exec (.cmps a) s = .next { s with acc := if s.acc = a then 1 else 0, pc := s.pc + 1 } ∧
    (s.Inv → exec (.cmp a) s = .next { s with
      acc := if s.accVec = s.wordVec a then 1 else 0, pc := s.pc + 1, memLen := max s.memLen (a + 1) }) ∧
    (s.Inv → (s.accVec = s.wordVec a ↔ s.acc = (s.wordVec a).toInt))

/-! ### Control (43_control.md) -/

/-- R180: HLT halts with PC, ACC and Mem unchanged, and step() returns false. -/
def Obligations.HltHaltsInPlace : Prop :=
  CatalogueOpcode .hlt ∧
  ∀ (s : State) (a : Nat), ∃ t : State, exec (.hlt a) s = .next t ∧
    t = { s with status := .halted } ∧ (s.request = none → t.stepResult = some false)

/-- JMP (43_control.md, R182) sets PC to its address field, without increment. That the word there is also read, which
shows in memLen alone, is the spec's decision D2 (log 6). -/
def Obligations.JmpSetsPcToAddressField : Prop :=
  CatalogueOpcode .jmp ∧
  ∀ (s : State) (a : Nat), exec (.jmp a) s = .next { s with pc := a, memLen := max s.memLen (a + 1) }

/-- R183: JEQ is taken exactly when ACC = 0. -/
def Obligations.JeqJumpsOnZero : Prop :=
  CatalogueOpcode .jeq ∧
  ∀ (s : State) (a : Nat), ∃ n : Nat,
    (s.acc = 0 → exec (.jeq a) s = .next { s with pc := a, memLen := n }) ∧
    (s.acc ≠ 0 → exec (.jeq a) s = .next { s with pc := s.pc + 1, memLen := n })

/-- R184: JLT is taken exactly when ACC < 0, which on a canonical ACC is when bit W−1 of acc bits is set. -/
def Obligations.JltJumpsOnNegative : Prop :=
  CatalogueOpcode .jlt ∧
  ∀ (s : State) (a : Nat), ∃ n : Nat,
    (s.acc < 0 → exec (.jlt a) s = .next { s with pc := a, memLen := n }) ∧
    (0 ≤ s.acc → exec (.jlt a) s = .next { s with pc := s.pc + 1, memLen := n }) ∧
    (s.Inv → (s.acc < 0 ↔ s.accBits.testBit (s.cfg.wordWidth - 1) = true))

/-- R185: NOP advances PC and does nothing else, whatever its address field. -/
def Obligations.NopAdvancesPc : Prop :=
  CatalogueOpcode .nop ∧
  ∀ (s : State) (a : Nat), exec (.nop a) s = .next { s with pc := s.pc + 1 }

/-- Taking InvalidOpcode (60_exceptions.md section 1, R260, R263): the engine halts with PC at the offending word, the
report carries PC and the opcode, nothing else changes, and the step returns false. The report's contents are the
spec's decision D20 (log 21). -/
def Obligations.InvalidOpcodeHaltsPrecisely : Prop :=
  ∀ (s : State) (a : Nat),
    (∃ t : State, exec (.invalid30 a) s = .next t ∧ (s.request = none → t.stepResult = some false) ∧
      t = { s with status := .halted, reports := s.reports ++ [⟨s.pc, 30⟩] }) ∧
    (∃ t : State, exec (.invalid31 a) s = .next t ∧ (s.request = none → t.stepResult = some false) ∧
      t = { s with status := .halted, reports := s.reports ++ [⟨s.pc, 31⟩] })

/-! ### Input and output (44_io.md) -/

/-- OUT (44_io.md section 1, R200) appends the decimal of the signed word and a newline, and changes nothing else but PC
and the length. The format is the spec's decision D22 (log 16), the signed reading D3 (log 9). -/
def Obligations.OutAppendsDecimalAndNewline : Prop :=
  CatalogueOpcode .out ∧
  ∀ (s : State) (a : Nat), s.Inv →
    exec (.out a) s = .next { s with
      out := s.out ++ [decimal (s.wordVec a).toInt ++ [10]], pc := s.pc + 1, memLen := max s.memLen (a + 1) }

/-- `decimal(n)` (44_io.md R200; the spec's decision D22, log 16): "-" exactly for a negative n, then one or more decimal
digits of value |n| with no leading zero but in "0". -/
def Obligations.DecimalSpellsTheNumber : Prop :=
  ∀ n : Int, ∃ ds : Text,
    decimal n = (if n < 0 then 45 :: ds else ds) ∧
    ds ≠ [] ∧ (∀ c ∈ ds, 48 ≤ c ∧ c ≤ 57) ∧ digitValue ds = n.natAbs ∧
    (ds.head? = some 48 → n = 0 ∧ ds = [48])

/-- What OUT appends, given to a batch INP as a line, is read as the same number, with its newline or, as a line of the
newline-delimited queue has it, without (44_io.md R200, R214; the spec's decisions D13 and D22, logs 16 and 18; the white
space is the model's, log 19). -/
def Obligations.BatchInputReadsBackOutput : Prop :=
  ∀ (n : Int) (lines : List Text),
    Provider.takeInteger (.batch (decimal n :: lines)) = some (n, .batch lines) ∧
    Provider.takeInteger (.batch ((decimal n ++ [10]) :: lines)) = some (n, .batch lines)

/-- OUA (44_io.md section 1, R201) appends the nonzero 8-bit groups of the word, most significant first, and no newline:
with lsb alignment group k is the word's byte k, with msb alignment the groups are cut from the top and the last holds
the low W mod 8 bits. The alignment, the missing newline and the characters are the spec's decisions D11 and D25 (logs
5 and 17). -/
def Obligations.OuaAppendsNonzeroGroups : Prop :=
  CatalogueOpcode .oua ∧
  ∀ (s : State) (a : Nat), s.Inv → ∃ text : Text,
    exec (.oua a) s = .next { s with
      out := s.out ++ [text], pc := s.pc + 1, memLen := max s.memLen (a + 1) } ∧
    (s.cfg.ouaGroupAlign = .lsb → text =
      ((List.range ((s.cfg.wordWidth + 7) / 8)).reverse.map
        (fun k => Memory.read s.mem a / 256 ^ k % 256)).filter (· ≠ 0)) ∧
    (s.cfg.ouaGroupAlign = .msb → text =
      ((List.range (s.cfg.wordWidth / 8)).map
          (fun j => Memory.read s.mem a / 2 ^ (s.cfg.wordWidth - 8 * (j + 1)) % 256) ++
        [Memory.read s.mem a % 2 ^ (s.cfg.wordWidth % 8)]).filter (· ≠ 0))

/-- R202: an answered INP stores reduceToRange of the integer, in ACC when its address is 0 and in that word of memory
otherwise; nothing else changes but PC, the length, the provider and the end of the request. What becomes of a stop()
held back during the request stands in StopDuringInputTakesEffectAfterStep. -/
def Obligations.InpStoresReducedInteger : Prop :=
  CatalogueOpcode .inp ∧
  ∀ (s : State) (a : Nat) (v : Int) (p : Provider), s.input.takeInteger = some (v, p) →
    ∃ t : State, exec (.inp a) s = .next t ∧
      t.acc = (if a = 0 then reduceToRange s.cfg.wordWidth v else s.acc) ∧
      (∀ b, Memory.read t.mem b = if b = a ∧ a ≠ 0
        then toUnsigned s.cfg.wordWidth (reduceToRange s.cfg.wordWidth v) else Memory.read s.mem b) ∧
      (s.stopPending = false → t.status = s.status ∧ t.stopPending = false) ∧
      t = { s with
        acc := t.acc, mem := t.mem, memLen := t.memLen, status := t.status, stopPending := t.stopPending
        pc := s.pc + 1, input := p, request := none }

/-- INA (44_io.md section 2, R203): an answered INA packs the characters, character i in bits 8i+7..8i and 0 above, in
ACC (as a non-negative number) when its address is 0 and in that word of memory otherwise. The placement is the spec's
decision D12 (log 17); that a stop() held back during the request takes effect now is 40_step_engine.md R125 as the model
has it (DEDUCED, log 25). -/
def Obligations.InaPacksCharactersLittleEndian : Prop :=
  CatalogueOpcode .ina ∧
  ∀ (s : State) (a : Nat) (text : Text) (p : Provider), s.cfg.legal →
    s.input.takeAscii s.cfg.wordWidth = some (text, p) →
    ∃ (t : State) (w : Nat), exec (.ina a) s = .next t ∧
      (∀ i, w / 256 ^ i % 256 = text.getD i 0) ∧ w < 2 ^ (s.cfg.wordWidth - 1) ∧
      t.acc = (if a = 0 then (w : Int) else s.acc) ∧
      (∀ b, Memory.read t.mem b = if b = a ∧ a ≠ 0 then w else Memory.read s.mem b) ∧
      t.status = (if s.stopPending = true ∧ s.status = .running then .idle else s.status) ∧
      t = { s with
        acc := t.acc, mem := t.mem, memLen := t.memLen, status := t.status, pc := s.pc + 1,
        input := p, request := none, stopPending := false }

/-- Whatever the provider holds, the core receives at most ⌊W/8⌋ codes of 0..127 (44_io.md section 3, R212; the batch
mode's zeroing is R215 with the spec's decision D13, log 18). -/
def Obligations.ProviderStringsAreShortAscii : Prop :=
  ∀ (W : Nat) (p q : Provider) (text : Text), p.takeAscii W = some (text, q) →
    text.length ≤ W / 8 ∧ ∀ c ∈ text, c ≤ 127

/-- The batch parse of INP (44_io.md section 3, R214; the spec's decision D13, log 18, and the model's white space, log
19): white space around an optional sign and one or more decimal digits is read as that number, and a line read as
anything but 0 has that form. -/
def Obligations.BatchParseReadsSignedDecimal : Prop :=
  (∀ pre ds post : Text, (∀ c ∈ pre ++ post, isSpace c = true) → ds ≠ [] → (∀ c ∈ ds, 48 ≤ c ∧ c ≤ 57) →
    parseInteger (pre ++ ds ++ post) = digitValue ds ∧
    parseInteger (pre ++ 43 :: ds ++ post) = digitValue ds ∧
    parseInteger (pre ++ 45 :: ds ++ post) = -(digitValue ds : Int)) ∧
  (∀ text : Text, parseInteger text ≠ 0 → ∃ pre ds post : Text,
    (∀ c ∈ pre ++ post, isSpace c = true) ∧ ds ≠ [] ∧ (∀ c ∈ ds, 48 ≤ c ∧ c ≤ 57) ∧
    (text = pre ++ ds ++ post ∨ text = pre ++ 43 :: ds ++ post ∨ text = pre ++ 45 :: ds ++ post))

/-- The batch queue (44_io.md section 3, R214, R215; the spec's decision D13, log 18): an empty queue answers at once
with 0 and the empty string; INP removes a line; INA takes its first ⌊W/8⌋ characters, codes above 127 zeroed, and puts
a non-empty remainder back at the head. -/
def Obligations.BatchQueueIsFirstInFirstOut : Prop :=
  ∀ (W : Nat) (row : Text) (rows : List Text),
    Provider.takeInteger (.batch []) = some (0, .batch []) ∧
    Provider.takeAscii W (.batch []) = some ([], .batch []) ∧
    (∃ n, Provider.takeInteger (.batch (row :: rows)) = some (n, .batch rows)) ∧
    ((∀ c ∈ row, ¬(48 ≤ c ∧ c ≤ 57)) → Provider.takeInteger (.batch (row :: rows)) = some (0, .batch rows)) ∧
    (∃ text q, Provider.takeAscii W (.batch (row :: rows)) = some (text, .batch q) ∧
      text.length = min (W / 8) row.length ∧
      (∀ (i c : Nat), i < W / 8 → row[i]? = some c → text[i]? = some (if c ≤ 127 then c else 0)) ∧
      q = if row.length ≤ W / 8 then rows else row.drop (W / 8) :: rows)

/-- An INP or INA the host has not answered waits (44_io.md section 3, R211; the spec's decision D21, log 22): its step
leaves the request in progress and changes nothing else. The host's answer completes that step at once (40_step_engine.md
R108) with the answer's value, and an invalid string is asked again (R212). How answers are held is the model's (log
23). -/
def Obligations.UnansweredInputWaits : Prop :=
  (∀ (s : State) (a : Nat),
    (s.input.takeInteger = none → exec (.inp a) s = .next { s with request := some .integer }) ∧
    (s.input.takeAscii s.cfg.wordWidth = none → exec (.ina a) s = .next { s with request := some .asciiString })) ∧
  (∀ (s t : State) (r : Request), s.Inv → step s = .next t → t.request = some r →
    t = { s with request := some r } ∧ t.stepResult = none ∧ s.current.bind Instr.asks = some r) ∧
  (∀ (s : State) (v : Int), s.Inv → s.request = some .integer →
    ∃ (a : Nat) (texts : List Text) (t : State),
      s.current = some (.inp a) ∧ s.input = .interactive [] texts ∧ s.answerInteger v = .next t ∧
      t.input = .interactive [] texts ∧ t.request = none ∧ t.pc = s.pc + 1 ∧
      (a = 0 → t.acc = reduceToRange s.cfg.wordWidth v) ∧
      (a ≠ 0 → Memory.read t.mem a = toUnsigned s.cfg.wordWidth (reduceToRange s.cfg.wordWidth v))) ∧
  (∀ (s : State) (text : Text), s.Inv → s.request = some .asciiString →
    (validAscii s.cfg.wordWidth text = true →
      ∃ (a : Nat) (ns : List Int) (t : State),
        s.current = some (.ina a) ∧ s.answerAscii text = .next t ∧
        t.input = .interactive ns [] ∧ t.request = none ∧ t.pc = s.pc + 1 ∧
        (a = 0 → t.acc = packAscii text) ∧ (a ≠ 0 → Memory.read t.mem a = packAscii text)) ∧
    (validAscii s.cfg.wordWidth text = false → s.answerAscii text = .next s))

/-! ### The engine (40_step_engine.md) -/

/-- A step runs the decoded instruction (R107): in Idle and Running it is the meaning of the instruction at PC, on the
state whose length the fetch may have grown and with no request yet made; where that leaves a request the step waits, and
all it does is to leave the request (44_io.md R211, D21, log 22). In Halted it changes nothing (R121, the spec's decision
D17, log 30). -/
def Obligations.StepRunsDecodedInstruction : Prop :=
  ∀ (s : State) (i : Instr),
    (s.status ≠ .halted → decode s.cfg (Memory.read s.mem s.pc) = .ok i →
      (∃ t : State, exec i { s with request := none, memLen := max s.memLen (s.pc + 1) } = .next t ∧
        step s = .next (if t.request = none then t else { s with request := t.request })) ∧
      (i.asks = none → step s = exec i { s with request := none, memLen := max s.memLen (s.pc + 1) })) ∧
    (s.status = .halted → step s = .next s)

/-- From every state a step answers a next state: nothing but InvalidOpcode faults (60_exceptions.md section 1, R261), and
that fault (R260) and a waiting step (44_io.md R211) are next states too, which is the model's choice (logs 35 and
22). -/
def Obligations.StepAlwaysAnswersNextState : Prop :=
  ∀ s : State, ∃ t : State, step s = .next t

/-- Every step keeps the machine's invariant: legal parameters, a canonical ACC, memory of W-bit words in canonical form
below its length, and a request in progress only for the instruction at PC and only while the host has not answered
(40_step_engine.md R108). -/
def Obligations.StepKeepsInvariant : Prop :=
  ∀ s t : State, s.Inv → step s = .next t → t.Inv

/-- The power-on state of every legal configuration meets the invariant, State.reset among them. -/
def Obligations.PowerOnMeetsInvariant : Prop :=
  (∀ cfg : Config, cfg.legal → (State.powerOn cfg).Inv) ∧ State.reset.Inv

/-- The values after power-on, New and reset() (10_state.md section 7, R35; 70_reset_and_hazards.md section 1): power-on
and New by the spec's decision D19, reset() by D18 (logs 31 and 26). That reset() and New drop a request in progress and a
stop() held back, and with them the waiting step, is the model's own choice (log 26). -/
def Obligations.InitialisingOperationsSetState : Prop :=
  (∀ (cfg : Config) (a : Nat), (State.powerOn cfg).acc = 0 ∧ (State.powerOn cfg).pc = 0 ∧
    Memory.read (State.powerOn cfg).mem a = 0 ∧ (State.powerOn cfg).memLen = 16 ∧
    (State.powerOn cfg).status = .idle ∧ (State.powerOn cfg).out = []) ∧
  ∀ s : State,
    s.hostReset = { s with acc := 0, pc := 0, status := .idle, request := none, stopPending := false } ∧
    s.new = { State.powerOn s.cfg with
      frequencyHz := s.frequencyHz, out := s.out, reports := s.reports, input := s.input } ∧
    (s.Inv → s.hostReset.Inv ∧ s.new.Inv)

/-- R106: what every completed instruction does to PC, and what step() returns: HLT (and an invalid word) leaves PC and
halts, a taken jump sets it to the address field, everything else adds 1 and may go on. -/
def Obligations.ProgramCounterRule : Prop :=
  ∀ (s t : State) (i : Instr), s.status ≠ .halted → exec i s = .next t → t.request = none →
    match i with
    | .hlt _ | .invalid30 _ | .invalid31 _ => t.pc = s.pc ∧ t.status = .halted ∧ t.stepResult = some false
    | .jmp a => t.pc = a ∧ t.stepResult = some true
    | .jeq a => t.pc = (if s.acc = 0 then a else s.pc + 1) ∧ t.stepResult = some true
    | .jlt a => t.pc = (if s.acc < 0 then a else s.pc + 1) ∧ t.stepResult = some true
    | _ => t.pc = s.pc + 1 ∧ t.stepResult = some true

/-- A step returns false exactly on HLT and on a word without an entry, and then it leaves Halted with PC, ACC, memory
and output as before (40_step_engine.md sections 1 to 3, R122, R126; 60_exceptions.md R260, R263). -/
def Obligations.StepReturnsFalseOnlyOnHltAndInvalid : Prop :=
  ∀ s t : State, s.Inv → s.status ≠ .halted → step s = .next t →
    (t.stepResult = some false ↔
      ∃ a, s.current = some (.hlt a) ∨ s.current = some (.invalid30 a) ∨ s.current = some (.invalid31 a)) ∧
    (t.stepResult = some false →
      t = { s with status := .halted, memLen := t.memLen, reports := t.reports })

/-- The instructions that may change ACC (10_state.md section 2, R24): every other one, and INP and INA with a nonzero
address, leaves it. -/
def Obligations.OnlyListedInstructionsWriteAcc : Prop :=
  ∀ (s t : State) (i : Instr), exec i s = .next t →
    match i with
    | .lda _ | .add _ | .sub _ | .mul _ | .div _ | .mod _ | .adds _ | .subs _ | .muls _ | .divs _ | .mods _ | .adb _
    | .and _ | .or _ | .xor _ | .not _ | .shr _ | .shl _ | .ror _ | .cmp _ | .cmps _ => True
    | .inp a | .ina a => a ≠ 0 → t.acc = s.acc
    | _ => t.acc = s.acc

/-- The only stores (20_memory.md sections 1 to 3, R51, R55): a word of memory changes only at the address of STA, or at
the nonzero address of INP or INA. -/
def Obligations.OnlyStaInpInaWriteMemory : Prop :=
  ∀ (s t : State) (i : Instr), exec i s = .next t →
    match i with
    | .sta a => ∀ b, b ≠ a → Memory.read t.mem b = Memory.read s.mem b
    | .inp a | .ina a => ∀ b, b ≠ a ∨ a = 0 → Memory.read t.mem b = Memory.read s.mem b
    | _ => t.mem = s.mem

/-- The output buffer only grows, by at most one text a step, and only by OUT and OUA (44_io.md R216, 10_state.md
R30). -/
def Obligations.OutputOnlyAppendedByOutAndOua : Prop :=
  ∀ s t : State, step s = .next t →
    t.out = s.out ∨
      ∃ text a, t.out = s.out ++ [text] ∧ (s.current = some (.out a) ∨ s.current = some (.oua a))

/-- The growth of memory (30_encoding.md R81, 20_memory.md R52): exactly the addressed instructions reach their address,
used or not; an INP or INA that waits reaches nothing (44_io.md R211, D21, log 22). The kinds are the spec's decision D2
(log 6), the length after an access D15 (log 7). -/
def Obligations.OperandAccessGrowsMemory : Prop :=
  ∀ (s t : State) (i : Instr), exec i s = .next t →
    match i with
    | .hlt _ | .nop _ | .adds _ | .subs _ | .muls _ | .divs _ | .mods _ | .cmps _ | .ror _ | .rol _ | .not _
    | .invalid30 _ | .invalid31 _ => t.memLen = s.memLen
    | .inp a | .ina a =>
      (t.request = none → t.memLen = max s.memLen (a + 1)) ∧ (t.request ≠ none → t.memLen = s.memLen)
    | i => t.memLen = max s.memLen (i.address + 1)

/-- No instruction observes memLen (10_state.md section 3, R27): two runs that differ only in it differ only in it after
a step. -/
def Obligations.MemoryLengthIsUnobservable : Prop :=
  ∀ (s : State) (n : Nat), ∃ (t : State) (m : Nat),
    step s = .next t ∧ step { s with memLen := n } = .next { t with memLen := m }

/-- A step leaves PC, adds 1, or jumps below 2^AW, stores below 2^AW only, and reaches no index but PC and those below 2^AW
(20_memory.md section 1, R51): an operand access never reaches index 2^AW, which shows in the length. -/
def Obligations.AddressesStayInAddressField : Prop :=
  ∀ s t : State, s.Inv → step s = .next t →
    (t.pc = s.pc ∨ t.pc = s.pc + 1 ∨ t.pc < 2 ^ (s.cfg.wordWidth - s.cfg.opcodeWidth.bits)) ∧
    (∀ b, 2 ^ (s.cfg.wordWidth - s.cfg.opcodeWidth.bits) ≤ b → Memory.read t.mem b = Memory.read s.mem b) ∧
    t.memLen ≤ max s.memLen (max (s.pc + 1) (2 ^ (s.cfg.wordWidth - s.cfg.opcodeWidth.bits)))

/-- What no step changes: W, O and the other parameters, and the frequency (10_state.md R20, R29; 00_scope.md R6, R7);
and the reports only grow, by at most one. -/
def Obligations.StepKeepsConfiguration : Prop :=
  ∀ s t : State, step s = .next t →
    t.cfg = s.cfg ∧ t.frequencyHz = s.frequencyHz ∧
    (t.reports = s.reports ∨
      ∃ r, t.reports = s.reports ++ [r] ∧ r.pc = s.pc ∧ t.status = .halted)

/-- Code may modify itself (20_memory.md section 6, R64): a word STA stores just after itself is the word the next step
fetches, decodes and runs. -/
def Obligations.StoreIsSeenByNextFetch : Prop :=
  ∀ (s t : State), s.Inv → s.status ≠ .halted →
    decode s.cfg (Memory.read s.mem s.pc) = .ok (.sta (s.pc + 1)) → step s = .next t →
    t.pc = s.pc + 1 ∧ t.fetch.1 = s.accVec.toNat ∧
      ∃ (i : Instr) (u : State), decode s.cfg s.accVec.toNat = .ok i ∧
        exec i { t with memLen := max t.memLen (t.pc + 1) } = .next u ∧
        step t = .next (if u.request = none then u else { t with request := u.request })

/-! ### The host's operations (40_step_engine.md section 2) -/

/-- run(), stop() and reset() in each status (40_step_engine.md section 2, R120 to R125; the spec's decisions D17, D18
and D24, logs 26, 28 and 30), and that they, the host's answers and its choice of the input mode keep the invariant
(44_io.md section 3; log 24). -/
def Obligations.HostOperationsFollowStatusMachine : Prop :=
  ∀ (s : State) (f : Rat), 0 < f →
    (s.status = .idle → s.run f = { s with status := .running, frequencyHz := f }) ∧
    (s.status = .running → s.run f = { s with frequencyHz := f }) ∧
    (s.status = .halted → s.run f = s) ∧
    (s.status = .running → s.request = none → s.stop = { s with status := .idle }) ∧
    (s.status ≠ .running → s.stop = s) ∧
    s.hostReset.status = .idle ∧ s.hostReset.mem = s.mem ∧ s.hostReset.memLen = s.memLen ∧
    s.hostReset.cfg = s.cfg ∧ s.hostReset.out = s.out ∧
    (s.Inv → (s.run f).Inv ∧ s.stop.Inv ∧ (∀ p, (s.configureInput p).Inv) ∧
      (∀ v t, s.answerInteger v = .next t → t.Inv) ∧ (∀ text t, s.answerAscii text = .next t → t.Inv))

/-- A stop() asked for while a step waits on input, an integer or a string, is held back and takes effect when the step
completes (40_step_engine.md section 2, R125, R108; log 25): in the meaning of INP and INA, and in the host's answer that
completes the step. -/
def Obligations.StopDuringInputTakesEffectAfterStep : Prop :=
  (∀ (s : State) (a : Nat), s.status = .running →
    (s.request = some .integer → ∀ v p, s.input.takeInteger = some (v, p) →
      ∃ t : State, s.stop = { s with stopPending := true } ∧ exec (.inp a) s.stop = .next t ∧
        t.status = .idle ∧ t.stopPending = false ∧ t.pc = s.pc + 1) ∧
    (s.request = some .asciiString → ∀ text p, s.input.takeAscii s.cfg.wordWidth = some (text, p) →
      ∃ t : State, s.stop = { s with stopPending := true } ∧ exec (.ina a) s.stop = .next t ∧
        t.status = .idle ∧ t.stopPending = false ∧ t.pc = s.pc + 1)) ∧
  (∀ s : State, s.Inv → s.status = .running →
    (s.request = some .integer → ∀ v, ∃ t : State, s.stop = { s with stopPending := true } ∧
      s.stop.answerInteger v = .next t ∧ t.status = .idle ∧ t.stopPending = false ∧ t.pc = s.pc + 1) ∧
    (s.request = some .asciiString → ∀ text, validAscii s.cfg.wordWidth text = true →
      ∃ t : State, s.stop = { s with stopPending := true } ∧ s.stop.answerAscii text = .next t ∧
        t.status = .idle ∧ t.stopPending = false ∧ t.pc = s.pc + 1))

/-- The run loop (40_step_engine.md sections 2 and 3, R124 to R126): the invariant holds throughout; a run ends only by a
false step, with PC at an HLT or invalid word, and then no scheduled step changes anything. stop() between two steps
suspends it: no scheduled step then changes anything, and run() goes on from there. -/
def Obligations.RunEndsAtHltOrInvalidWord : Prop :=
  ∀ (s t : State) (n : Nat), s.Inv → s.status = .running → s.runLoop n = .next t →
    t.Inv ∧ t.status ≠ .idle ∧
    (t.status = .halted →
      ∃ a, t.current = some (.hlt a) ∨ t.current = some (.invalid30 a) ∨ t.current = some (.invalid31 a)) ∧
    (t.status ≠ .running → ∀ m, s.runLoop (n + m) = .next t) ∧
    (t.status = .running → t.request = none →
      t.stop.status = .idle ∧ (∀ m, t.stop.runLoop m = .next t.stop) ∧
      ∀ f : Rat, 0 < f → t.stop.run f = { t with frequencyHz := f })

/-- A saved state loaded again has the same W, O, PC, ACC and memory, and is Idle; a failed load changes nothing
(10_state.md R20, 70_reset_and_hazards.md R292; the spec's decision D18; snapshots instead of files are the model's,
log 29). -/
def Obligations.SaveThenLoadRestoresState : Prop :=
  ∀ (s u : State), s.wordsFit → u.status ≠ .running →
    (u.load (some s.save)).cfg.wordWidth = s.cfg.wordWidth ∧
    (u.load (some s.save)).cfg.opcodeWidth = s.cfg.opcodeWidth ∧
    (u.load (some s.save)).pc = s.pc ∧ (u.load (some s.save)).acc = s.acc ∧
    (u.load (some s.save)).memLen = s.memLen ∧ (u.load (some s.save)).status = .idle ∧
    (∀ a, Memory.read (u.load (some s.save)).mem a = Memory.read s.mem a) ∧
    u.load none = u
end

