-- ==== Sys2Proof/Laws/Alu.lean ====
section
/-! SUPPORT. The integer unit as core Lean's bit vectors: each conversion is one of BitVec's, so that a claim about a
result can be carried to the library's lemmas. -/

namespace Sys2Proof.Machine

theorem two_pow_pred {W : Nat} (h : 1 ≤ W) : 2 * 2 ^ (W - 1) = 2 ^ W := by
  obtain ⟨k, rfl⟩ := Nat.exists_eq_add_of_le' h
  simp [pow_succ, mul_comm]

/-- Reading a W-bit word signed is BitVec's reading. -/
theorem toSigned_eq_toInt {W : Nat} (hW : 1 ≤ W) {u : Nat} (h : u < 2 ^ W) :
    toSigned W u = (BitVec.ofNat W u).toInt := by
  have h2 := two_pow_pred hW
  have hp : 0 < 2 ^ (W - 1) := Nat.two_pow_pos _
  rw [BitVec.toInt_eq_toNat_cond, BitVec.toNat_ofNat, Nat.mod_eq_of_lt h]
  unfold toSigned
  split <;> split <;> omega

/-- acc bits of a canonical ACC are BitVec's pattern of it. -/
theorem toUnsigned_eq_toNat {W : Nat} (hW : 1 ≤ W) {v : Int} (h : canonical W v) :
    toUnsigned W v = (BitVec.ofInt W v).toNat := by
  have h2 := two_pow_pred hW
  obtain ⟨h1, h3⟩ := h
  rw [BitVec.toNat_ofInt]
  unfold toUnsigned
  split
  · rw [← Int.add_emod_right, Int.emod_eq_of_lt (by omega) (by omega)]
  · rw [Int.emod_eq_of_lt (by omega) (by omega)]

/-- reduceToRange is BitVec's reading of the pattern of its argument. -/
theorem reduceToRange_eq_toInt {W : Nat} (hW : 1 ≤ W) (v : Int) :
    reduceToRange W v = (BitVec.ofInt W v).toInt := by
  have h2 := two_pow_pred hW
  have hm := Int.emod_nonneg v (b := (2 ^ W : Nat)) (by have := Nat.two_pow_pos W; omega)
  have hl := Int.emod_lt_of_pos v (b := (2 ^ W : Nat)) (by have := Nat.two_pow_pos W; omega)
  rw [BitVec.toInt_eq_toNat_cond, BitVec.toNat_ofInt]
  unfold reduceToRange
  rw [← Int.emod_add_emod]
  generalize v % ((2 ^ W : Nat) : Int) = r at *
  split
  · rw [Int.emod_eq_of_lt (by omega) (by omega)]; omega
  · rw [← Int.sub_emod_right, Int.emod_eq_of_lt (by omega) (by omega)]; omega

/-- A pattern read signed lies in the canonical range. -/
theorem canonical_toInt {W : Nat} (hW : 1 ≤ W) (x : BitVec W) : canonical W x.toInt := by
  have h2 := two_pow_pred hW
  have := x.isLt
  rw [canonical, BitVec.toInt_eq_toNat_cond]
  split <;> constructor <;> omega

/-- A canonical integer is the signed reading of its own pattern. -/
theorem toInt_ofInt_of_canonical {W : Nat} (hW : 1 ≤ W) {v : Int} (h : canonical W v) :
    (BitVec.ofInt W v).toInt = v := by
  have h2 := two_pow_pred hW
  obtain ⟨h1, h3⟩ := h
  rw [BitVec.toInt_ofInt]
  exact Int.bmod_eq_of_le_mul_two (by omega) (by omega)

end Sys2Proof.Machine
end

