-- ==== Sys2Proof/Laws/Decode.lean ====
section
/-! SUPPORT. The decoder's fields as arithmetic, and what a step does, said once. -/

namespace Sys2Proof

theorem opcodeField_eq_div (cfg : Config) (w : Nat) :
    opcodeField cfg w = w / 2 ^ cfg.addressWidth :=
  Nat.shiftRight_eq_div_pow w cfg.addressWidth

theorem addressField_eq_mod (cfg : Config) (w : Nat) :
    addressField cfg w = w % 2 ^ cfg.addressWidth :=
  Nat.and_two_pow_sub_one_eq_mod w cfg.addressWidth

/-- O is below W in a legal configuration, so the two fields make up the word (00_scope.md R7). -/
theorem Config.legal.bits_add {cfg : Config} (h : cfg.legal) :
    cfg.opcodeWidth.bits + cfg.addressWidth = cfg.wordWidth := by
  have := h.1
  unfold Config.addressWidth
  cases cfg.opcodeWidth <;> simp only [OpcodeWidth.bits] <;> omega

end Sys2Proof

namespace Sys2Proof.Machine

/-- Everything a step can do: nothing in Halted, the decoded instruction settled, or InvalidOpcode. -/
theorem step_cases (s : State) :
    (s.status = .halted ∧ step s = .next s) ∨
    (s.status ≠ .halted ∧ ∃ i, decode s.cfg s.fetch.1 = .ok i ∧
      ∀ t, exec i s.begun.fetch.2 = .next t → step s = .next (s.settle t)) ∨
    (s.status ≠ .halted ∧ ∃ op, decode s.cfg s.fetch.1 = .error (.invalidOpcode op) ∧
      step s = .next (s.begun.fetch.2.takeInvalidOpcode op)) := by
  unfold step
  cases hs : s.status
  case halted => exact .inl ⟨rfl, rfl⟩
  all_goals
    refine .inr ?_
    cases hd : decode s.cfg s.fetch.1 with
    | ok i => exact .inl ⟨by simp, i, rfl, fun t ht => by simp only [ht]⟩
    | error e => cases e with
      | invalidOpcode op => exact .inr ⟨by simp, op, rfl, rfl⟩

end Sys2Proof.Machine
end

