-- ==== Sys2Proof/Laws/State.lean ====
section
/-! SUPPORT. One lemma per field and update of State, so that no proof unfolds a record update. -/

namespace Sys2Proof.Machine

variable (s : State)

/-! ### touch -/

@[simp] theorem State.touch_cfg (a : Nat) : (s.touch a).cfg = s.cfg := rfl
@[simp] theorem State.touch_acc (a : Nat) : (s.touch a).acc = s.acc := rfl
@[simp] theorem State.touch_pc (a : Nat) : (s.touch a).pc = s.pc := rfl
@[simp] theorem State.touch_mem (a : Nat) : (s.touch a).mem = s.mem := rfl
@[simp] theorem State.touch_memLen (a : Nat) : (s.touch a).memLen = max s.memLen (a + 1) := by simp only [State.touch]; split <;> omega
@[simp] theorem State.touch_status (a : Nat) : (s.touch a).status = s.status := rfl
@[simp] theorem State.touch_frequencyHz (a : Nat) : (s.touch a).frequencyHz = s.frequencyHz := rfl
@[simp] theorem State.touch_out (a : Nat) : (s.touch a).out = s.out := rfl
@[simp] theorem State.touch_reports (a : Nat) : (s.touch a).reports = s.reports := rfl
@[simp] theorem State.touch_input (a : Nat) : (s.touch a).input = s.input := rfl
@[simp] theorem State.touch_request (a : Nat) : (s.touch a).request = s.request := rfl
@[simp] theorem State.touch_stopPending (a : Nat) : (s.touch a).stopPending = s.stopPending := rfl
@[simp] theorem State.touch_width (a : Nat) : (s.touch a).width = s.width := rfl

/-! ### memWrite -/

@[simp] theorem State.memWrite_cfg (a : Nat) (v : Nat) : (s.memWrite a v).cfg = s.cfg := rfl
@[simp] theorem State.memWrite_acc (a : Nat) (v : Nat) : (s.memWrite a v).acc = s.acc := rfl
@[simp] theorem State.memWrite_pc (a : Nat) (v : Nat) : (s.memWrite a v).pc = s.pc := rfl
@[simp] theorem State.memWrite_mem (a : Nat) (v : Nat) : (s.memWrite a v).mem = Memory.write a v s.mem := rfl
@[simp] theorem State.memWrite_memLen (a : Nat) (v : Nat) : (s.memWrite a v).memLen = max s.memLen (a + 1) := State.touch_memLen s a
@[simp] theorem State.memWrite_status (a : Nat) (v : Nat) : (s.memWrite a v).status = s.status := rfl
@[simp] theorem State.memWrite_frequencyHz (a : Nat) (v : Nat) : (s.memWrite a v).frequencyHz = s.frequencyHz := rfl
@[simp] theorem State.memWrite_out (a : Nat) (v : Nat) : (s.memWrite a v).out = s.out := rfl
@[simp] theorem State.memWrite_reports (a : Nat) (v : Nat) : (s.memWrite a v).reports = s.reports := rfl
@[simp] theorem State.memWrite_input (a : Nat) (v : Nat) : (s.memWrite a v).input = s.input := rfl
@[simp] theorem State.memWrite_request (a : Nat) (v : Nat) : (s.memWrite a v).request = s.request := rfl
@[simp] theorem State.memWrite_stopPending (a : Nat) (v : Nat) : (s.memWrite a v).stopPending = s.stopPending := rfl
@[simp] theorem State.memWrite_width (a : Nat) (v : Nat) : (s.memWrite a v).width = s.width := rfl

/-! ### setAcc -/

@[simp] theorem State.setAcc_cfg (v : Int) : (s.setAcc v).cfg = s.cfg := rfl
@[simp] theorem State.setAcc_acc (v : Int) : (s.setAcc v).acc = v := rfl
@[simp] theorem State.setAcc_pc (v : Int) : (s.setAcc v).pc = s.pc := rfl
@[simp] theorem State.setAcc_mem (v : Int) : (s.setAcc v).mem = s.mem := rfl
@[simp] theorem State.setAcc_memLen (v : Int) : (s.setAcc v).memLen = s.memLen := rfl
@[simp] theorem State.setAcc_status (v : Int) : (s.setAcc v).status = s.status := rfl
@[simp] theorem State.setAcc_frequencyHz (v : Int) : (s.setAcc v).frequencyHz = s.frequencyHz := rfl
@[simp] theorem State.setAcc_out (v : Int) : (s.setAcc v).out = s.out := rfl
@[simp] theorem State.setAcc_reports (v : Int) : (s.setAcc v).reports = s.reports := rfl
@[simp] theorem State.setAcc_input (v : Int) : (s.setAcc v).input = s.input := rfl
@[simp] theorem State.setAcc_request (v : Int) : (s.setAcc v).request = s.request := rfl
@[simp] theorem State.setAcc_stopPending (v : Int) : (s.setAcc v).stopPending = s.stopPending := rfl
@[simp] theorem State.setAcc_width (v : Int) : (s.setAcc v).width = s.width := rfl

/-! ### advance -/

@[simp] theorem State.advance_cfg : (s.advance).cfg = s.cfg := rfl
@[simp] theorem State.advance_acc : (s.advance).acc = s.acc := rfl
@[simp] theorem State.advance_pc : (s.advance).pc = s.pc + 1 := rfl
@[simp] theorem State.advance_mem : (s.advance).mem = s.mem := rfl
@[simp] theorem State.advance_memLen : (s.advance).memLen = s.memLen := rfl
@[simp] theorem State.advance_status : (s.advance).status = s.status := rfl
@[simp] theorem State.advance_frequencyHz : (s.advance).frequencyHz = s.frequencyHz := rfl
@[simp] theorem State.advance_out : (s.advance).out = s.out := rfl
@[simp] theorem State.advance_reports : (s.advance).reports = s.reports := rfl
@[simp] theorem State.advance_input : (s.advance).input = s.input := rfl
@[simp] theorem State.advance_request : (s.advance).request = s.request := rfl
@[simp] theorem State.advance_stopPending : (s.advance).stopPending = s.stopPending := rfl
@[simp] theorem State.advance_width : (s.advance).width = s.width := rfl

/-! ### jump -/

@[simp] theorem State.jump_cfg (a : Nat) : (s.jump a).cfg = s.cfg := rfl
@[simp] theorem State.jump_acc (a : Nat) : (s.jump a).acc = s.acc := rfl
@[simp] theorem State.jump_pc (a : Nat) : (s.jump a).pc = a := rfl
@[simp] theorem State.jump_mem (a : Nat) : (s.jump a).mem = s.mem := rfl
@[simp] theorem State.jump_memLen (a : Nat) : (s.jump a).memLen = s.memLen := rfl
@[simp] theorem State.jump_status (a : Nat) : (s.jump a).status = s.status := rfl
@[simp] theorem State.jump_frequencyHz (a : Nat) : (s.jump a).frequencyHz = s.frequencyHz := rfl
@[simp] theorem State.jump_out (a : Nat) : (s.jump a).out = s.out := rfl
@[simp] theorem State.jump_reports (a : Nat) : (s.jump a).reports = s.reports := rfl
@[simp] theorem State.jump_input (a : Nat) : (s.jump a).input = s.input := rfl
@[simp] theorem State.jump_request (a : Nat) : (s.jump a).request = s.request := rfl
@[simp] theorem State.jump_stopPending (a : Nat) : (s.jump a).stopPending = s.stopPending := rfl
@[simp] theorem State.jump_width (a : Nat) : (s.jump a).width = s.width := rfl

/-! ### finishAcc -/

@[simp] theorem State.finishAcc_cfg (v : Int) : (s.finishAcc v).cfg = s.cfg := rfl
@[simp] theorem State.finishAcc_acc (v : Int) : (s.finishAcc v).acc = v := rfl
@[simp] theorem State.finishAcc_pc (v : Int) : (s.finishAcc v).pc = s.pc + 1 := rfl
@[simp] theorem State.finishAcc_mem (v : Int) : (s.finishAcc v).mem = s.mem := rfl
@[simp] theorem State.finishAcc_memLen (v : Int) : (s.finishAcc v).memLen = s.memLen := rfl
@[simp] theorem State.finishAcc_status (v : Int) : (s.finishAcc v).status = s.status := rfl
@[simp] theorem State.finishAcc_frequencyHz (v : Int) : (s.finishAcc v).frequencyHz = s.frequencyHz := rfl
@[simp] theorem State.finishAcc_out (v : Int) : (s.finishAcc v).out = s.out := rfl
@[simp] theorem State.finishAcc_reports (v : Int) : (s.finishAcc v).reports = s.reports := rfl
@[simp] theorem State.finishAcc_input (v : Int) : (s.finishAcc v).input = s.input := rfl
@[simp] theorem State.finishAcc_request (v : Int) : (s.finishAcc v).request = s.request := rfl
@[simp] theorem State.finishAcc_stopPending (v : Int) : (s.finishAcc v).stopPending = s.stopPending := rfl
@[simp] theorem State.finishAcc_width (v : Int) : (s.finishAcc v).width = s.width := rfl

/-! ### finishBits -/

@[simp] theorem State.finishBits_cfg (r : Nat) : (s.finishBits r).cfg = s.cfg := rfl
@[simp] theorem State.finishBits_acc (r : Nat) : (s.finishBits r).acc = toSigned s.width r := rfl
@[simp] theorem State.finishBits_pc (r : Nat) : (s.finishBits r).pc = s.pc + 1 := rfl
@[simp] theorem State.finishBits_mem (r : Nat) : (s.finishBits r).mem = s.mem := rfl
@[simp] theorem State.finishBits_memLen (r : Nat) : (s.finishBits r).memLen = s.memLen := rfl
@[simp] theorem State.finishBits_status (r : Nat) : (s.finishBits r).status = s.status := rfl
@[simp] theorem State.finishBits_frequencyHz (r : Nat) : (s.finishBits r).frequencyHz = s.frequencyHz := rfl
@[simp] theorem State.finishBits_out (r : Nat) : (s.finishBits r).out = s.out := rfl
@[simp] theorem State.finishBits_reports (r : Nat) : (s.finishBits r).reports = s.reports := rfl
@[simp] theorem State.finishBits_input (r : Nat) : (s.finishBits r).input = s.input := rfl
@[simp] theorem State.finishBits_request (r : Nat) : (s.finishBits r).request = s.request := rfl
@[simp] theorem State.finishBits_stopPending (r : Nat) : (s.finishBits r).stopPending = s.stopPending := rfl
@[simp] theorem State.finishBits_width (r : Nat) : (s.finishBits r).width = s.width := rfl

/-! ### halt -/

@[simp] theorem State.halt_cfg : (s.halt).cfg = s.cfg := rfl
@[simp] theorem State.halt_acc : (s.halt).acc = s.acc := rfl
@[simp] theorem State.halt_pc : (s.halt).pc = s.pc := rfl
@[simp] theorem State.halt_mem : (s.halt).mem = s.mem := rfl
@[simp] theorem State.halt_memLen : (s.halt).memLen = s.memLen := rfl
@[simp] theorem State.halt_status : (s.halt).status = .halted := rfl
@[simp] theorem State.halt_frequencyHz : (s.halt).frequencyHz = s.frequencyHz := rfl
@[simp] theorem State.halt_out : (s.halt).out = s.out := rfl
@[simp] theorem State.halt_reports : (s.halt).reports = s.reports := rfl
@[simp] theorem State.halt_input : (s.halt).input = s.input := rfl
@[simp] theorem State.halt_request : (s.halt).request = s.request := rfl
@[simp] theorem State.halt_stopPending : (s.halt).stopPending = s.stopPending := rfl
@[simp] theorem State.halt_width : (s.halt).width = s.width := rfl

/-! ### emit -/

@[simp] theorem State.emit_cfg (t : Text) : (s.emit t).cfg = s.cfg := rfl
@[simp] theorem State.emit_acc (t : Text) : (s.emit t).acc = s.acc := rfl
@[simp] theorem State.emit_pc (t : Text) : (s.emit t).pc = s.pc := rfl
@[simp] theorem State.emit_mem (t : Text) : (s.emit t).mem = s.mem := rfl
@[simp] theorem State.emit_memLen (t : Text) : (s.emit t).memLen = s.memLen := rfl
@[simp] theorem State.emit_status (t : Text) : (s.emit t).status = s.status := rfl
@[simp] theorem State.emit_frequencyHz (t : Text) : (s.emit t).frequencyHz = s.frequencyHz := rfl
@[simp] theorem State.emit_out (t : Text) : (s.emit t).out = s.out ++ [t] := rfl
@[simp] theorem State.emit_reports (t : Text) : (s.emit t).reports = s.reports := rfl
@[simp] theorem State.emit_input (t : Text) : (s.emit t).input = s.input := rfl
@[simp] theorem State.emit_request (t : Text) : (s.emit t).request = s.request := rfl
@[simp] theorem State.emit_stopPending (t : Text) : (s.emit t).stopPending = s.stopPending := rfl
@[simp] theorem State.emit_width (t : Text) : (s.emit t).width = s.width := rfl

/-! ### takeInvalidOpcode -/

@[simp] theorem State.takeInvalidOpcode_cfg (op : Nat) : (s.takeInvalidOpcode op).cfg = s.cfg := rfl
@[simp] theorem State.takeInvalidOpcode_acc (op : Nat) : (s.takeInvalidOpcode op).acc = s.acc := rfl
@[simp] theorem State.takeInvalidOpcode_pc (op : Nat) : (s.takeInvalidOpcode op).pc = s.pc := rfl
@[simp] theorem State.takeInvalidOpcode_mem (op : Nat) : (s.takeInvalidOpcode op).mem = s.mem := rfl
@[simp] theorem State.takeInvalidOpcode_memLen (op : Nat) : (s.takeInvalidOpcode op).memLen = s.memLen := rfl
@[simp] theorem State.takeInvalidOpcode_status (op : Nat) : (s.takeInvalidOpcode op).status = .halted := rfl
@[simp] theorem State.takeInvalidOpcode_frequencyHz (op : Nat) : (s.takeInvalidOpcode op).frequencyHz = s.frequencyHz := rfl
@[simp] theorem State.takeInvalidOpcode_out (op : Nat) : (s.takeInvalidOpcode op).out = s.out := rfl
@[simp] theorem State.takeInvalidOpcode_reports (op : Nat) : (s.takeInvalidOpcode op).reports = s.reports ++ [{ pc := s.pc, op := op }] := rfl
@[simp] theorem State.takeInvalidOpcode_input (op : Nat) : (s.takeInvalidOpcode op).input = s.input := rfl
@[simp] theorem State.takeInvalidOpcode_request (op : Nat) : (s.takeInvalidOpcode op).request = s.request := rfl
@[simp] theorem State.takeInvalidOpcode_stopPending (op : Nat) : (s.takeInvalidOpcode op).stopPending = s.stopPending := rfl
@[simp] theorem State.takeInvalidOpcode_width (op : Nat) : (s.takeInvalidOpcode op).width = s.width := rfl

/-! ### await -/

@[simp] theorem State.await_cfg (r : Request) : (s.await r).cfg = s.cfg := rfl
@[simp] theorem State.await_acc (r : Request) : (s.await r).acc = s.acc := rfl
@[simp] theorem State.await_pc (r : Request) : (s.await r).pc = s.pc := rfl
@[simp] theorem State.await_mem (r : Request) : (s.await r).mem = s.mem := rfl
@[simp] theorem State.await_memLen (r : Request) : (s.await r).memLen = s.memLen := rfl
@[simp] theorem State.await_status (r : Request) : (s.await r).status = s.status := rfl
@[simp] theorem State.await_frequencyHz (r : Request) : (s.await r).frequencyHz = s.frequencyHz := rfl
@[simp] theorem State.await_out (r : Request) : (s.await r).out = s.out := rfl
@[simp] theorem State.await_reports (r : Request) : (s.await r).reports = s.reports := rfl
@[simp] theorem State.await_input (r : Request) : (s.await r).input = s.input := rfl
@[simp] theorem State.await_request (r : Request) : (s.await r).request = some r := rfl
@[simp] theorem State.await_stopPending (r : Request) : (s.await r).stopPending = s.stopPending := rfl
@[simp] theorem State.await_width (r : Request) : (s.await r).width = s.width := rfl

/-! ### answered -/

@[simp] theorem State.answered_cfg (p : Provider) : (s.answered p).cfg = s.cfg := rfl
@[simp] theorem State.answered_acc (p : Provider) : (s.answered p).acc = s.acc := rfl
@[simp] theorem State.answered_pc (p : Provider) : (s.answered p).pc = s.pc := rfl
@[simp] theorem State.answered_mem (p : Provider) : (s.answered p).mem = s.mem := rfl
@[simp] theorem State.answered_memLen (p : Provider) : (s.answered p).memLen = s.memLen := rfl
@[simp] theorem State.answered_status (p : Provider) : (s.answered p).status = if s.stopPending && decide (s.status = .running) then .idle else s.status := rfl
@[simp] theorem State.answered_frequencyHz (p : Provider) : (s.answered p).frequencyHz = s.frequencyHz := rfl
@[simp] theorem State.answered_out (p : Provider) : (s.answered p).out = s.out := rfl
@[simp] theorem State.answered_reports (p : Provider) : (s.answered p).reports = s.reports := rfl
@[simp] theorem State.answered_input (p : Provider) : (s.answered p).input = p := rfl
@[simp] theorem State.answered_request (p : Provider) : (s.answered p).request = none := rfl
@[simp] theorem State.answered_stopPending (p : Provider) : (s.answered p).stopPending = false := rfl
@[simp] theorem State.answered_width (p : Provider) : (s.answered p).width = s.width := rfl

/-! ### hostReset -/

@[simp] theorem State.hostReset_cfg : (s.hostReset).cfg = s.cfg := rfl
@[simp] theorem State.hostReset_acc : (s.hostReset).acc = 0 := rfl
@[simp] theorem State.hostReset_pc : (s.hostReset).pc = 0 := rfl
@[simp] theorem State.hostReset_mem : (s.hostReset).mem = s.mem := rfl
@[simp] theorem State.hostReset_memLen : (s.hostReset).memLen = s.memLen := rfl
@[simp] theorem State.hostReset_status : (s.hostReset).status = .idle := rfl
@[simp] theorem State.hostReset_frequencyHz : (s.hostReset).frequencyHz = s.frequencyHz := rfl
@[simp] theorem State.hostReset_out : (s.hostReset).out = s.out := rfl
@[simp] theorem State.hostReset_reports : (s.hostReset).reports = s.reports := rfl
@[simp] theorem State.hostReset_input : (s.hostReset).input = s.input := rfl
@[simp] theorem State.hostReset_request : (s.hostReset).request = none := rfl
@[simp] theorem State.hostReset_stopPending : (s.hostReset).stopPending = false := rfl
@[simp] theorem State.hostReset_width : (s.hostReset).width = s.width := rfl

/-! ### new -/

@[simp] theorem State.new_cfg : (s.new).cfg = s.cfg := rfl
@[simp] theorem State.new_acc : (s.new).acc = 0 := rfl
@[simp] theorem State.new_pc : (s.new).pc = 0 := rfl
@[simp] theorem State.new_mem : (s.new).mem = [] := rfl
@[simp] theorem State.new_memLen : (s.new).memLen = 16 := rfl
@[simp] theorem State.new_status : (s.new).status = .idle := rfl
@[simp] theorem State.new_frequencyHz : (s.new).frequencyHz = s.frequencyHz := rfl
@[simp] theorem State.new_out : (s.new).out = s.out := rfl
@[simp] theorem State.new_reports : (s.new).reports = s.reports := rfl
@[simp] theorem State.new_input : (s.new).input = s.input := rfl
@[simp] theorem State.new_request : (s.new).request = none := rfl
@[simp] theorem State.new_stopPending : (s.new).stopPending = false := rfl
@[simp] theorem State.new_width : (s.new).width = s.width := rfl

/-! ### formOperand -/

@[simp] theorem State.formOperand_cfg (m : Mnemonic) (a : Nat) : (s.formOperand m a).cfg = s.cfg := by
  unfold State.formOperand; split <;> rfl
@[simp] theorem State.formOperand_acc (m : Mnemonic) (a : Nat) : (s.formOperand m a).acc = s.acc := by
  unfold State.formOperand; split <;> rfl
@[simp] theorem State.formOperand_pc (m : Mnemonic) (a : Nat) : (s.formOperand m a).pc = s.pc := by
  unfold State.formOperand; split <;> rfl
@[simp] theorem State.formOperand_mem (m : Mnemonic) (a : Nat) : (s.formOperand m a).mem = s.mem := by
  unfold State.formOperand; split <;> rfl
@[simp] theorem State.formOperand_status (m : Mnemonic) (a : Nat) : (s.formOperand m a).status = s.status := by
  unfold State.formOperand; split <;> rfl
@[simp] theorem State.formOperand_frequencyHz (m : Mnemonic) (a : Nat) : (s.formOperand m a).frequencyHz = s.frequencyHz := by
  unfold State.formOperand; split <;> rfl
@[simp] theorem State.formOperand_out (m : Mnemonic) (a : Nat) : (s.formOperand m a).out = s.out := by
  unfold State.formOperand; split <;> rfl
@[simp] theorem State.formOperand_reports (m : Mnemonic) (a : Nat) : (s.formOperand m a).reports = s.reports := by
  unfold State.formOperand; split <;> rfl
@[simp] theorem State.formOperand_input (m : Mnemonic) (a : Nat) : (s.formOperand m a).input = s.input := by
  unfold State.formOperand; split <;> rfl
@[simp] theorem State.formOperand_request (m : Mnemonic) (a : Nat) : (s.formOperand m a).request = s.request := by
  unfold State.formOperand; split <;> rfl
@[simp] theorem State.formOperand_stopPending (m : Mnemonic) (a : Nat) : (s.formOperand m a).stopPending = s.stopPending := by
  unfold State.formOperand; split <;> rfl
@[simp] theorem State.formOperand_width (m : Mnemonic) (a : Nat) : (s.formOperand m a).width = s.width := by
  unfold State.formOperand; split <;> rfl
@[simp] theorem State.formOperand_memLen (m : Mnemonic) (a : Nat) :
    (s.formOperand m a).memLen = if targetKind m = .addressed then max s.memLen (a + 1) else s.memLen := by
  unfold State.formOperand; split <;> simp_all

/-! ### storeInput -/

@[simp] theorem State.storeInput_cfg (a : Nat) (v : Int) (w : Nat) : (s.storeInput a v w).cfg = s.cfg := by
  unfold State.storeInput; split <;> rfl
@[simp] theorem State.storeInput_pc (a : Nat) (v : Int) (w : Nat) : (s.storeInput a v w).pc = s.pc := by
  unfold State.storeInput; split <;> rfl
@[simp] theorem State.storeInput_status (a : Nat) (v : Int) (w : Nat) : (s.storeInput a v w).status = s.status := by
  unfold State.storeInput; split <;> rfl
@[simp] theorem State.storeInput_frequencyHz (a : Nat) (v : Int) (w : Nat) : (s.storeInput a v w).frequencyHz = s.frequencyHz := by
  unfold State.storeInput; split <;> rfl
@[simp] theorem State.storeInput_out (a : Nat) (v : Int) (w : Nat) : (s.storeInput a v w).out = s.out := by
  unfold State.storeInput; split <;> rfl
@[simp] theorem State.storeInput_reports (a : Nat) (v : Int) (w : Nat) : (s.storeInput a v w).reports = s.reports := by
  unfold State.storeInput; split <;> rfl
@[simp] theorem State.storeInput_input (a : Nat) (v : Int) (w : Nat) : (s.storeInput a v w).input = s.input := by
  unfold State.storeInput; split <;> rfl
@[simp] theorem State.storeInput_request (a : Nat) (v : Int) (w : Nat) : (s.storeInput a v w).request = s.request := by
  unfold State.storeInput; split <;> rfl
@[simp] theorem State.storeInput_stopPending (a : Nat) (v : Int) (w : Nat) : (s.storeInput a v w).stopPending = s.stopPending := by
  unfold State.storeInput; split <;> rfl
@[simp] theorem State.storeInput_acc (a : Nat) (v : Int) (w : Nat) :
    (s.storeInput a v w).acc = if a = 0 then v else s.acc := by
  unfold State.storeInput; split <;> rfl
@[simp] theorem State.storeInput_mem (a : Nat) (v : Int) (w : Nat) :
    (s.storeInput a v w).mem = if a = 0 then s.mem else Memory.write a w s.mem := by
  unfold State.storeInput; split <;> rfl
@[simp] theorem State.storeInput_memLen (a : Nat) (v : Int) (w : Nat) :
    (s.storeInput a v w).memLen = if a = 0 then s.memLen else max s.memLen (a + 1) := by
  unfold State.storeInput; split <;> simp

/-! ### begun -/

@[simp] theorem State.begun_cfg : s.begun.cfg = s.cfg := rfl
@[simp] theorem State.begun_acc : s.begun.acc = s.acc := rfl
@[simp] theorem State.begun_pc : s.begun.pc = s.pc := rfl
@[simp] theorem State.begun_mem : s.begun.mem = s.mem := rfl
@[simp] theorem State.begun_memLen : s.begun.memLen = s.memLen := rfl
@[simp] theorem State.begun_status : s.begun.status = s.status := rfl
@[simp] theorem State.begun_frequencyHz : s.begun.frequencyHz = s.frequencyHz := rfl
@[simp] theorem State.begun_out : s.begun.out = s.out := rfl
@[simp] theorem State.begun_reports : s.begun.reports = s.reports := rfl
@[simp] theorem State.begun_input : s.begun.input = s.input := rfl
@[simp] theorem State.begun_stopPending : s.begun.stopPending = s.stopPending := rfl
@[simp] theorem State.begun_width : s.begun.width = s.width := rfl
@[simp] theorem State.begun_request : s.begun.request = none := rfl

/-! ### configureInput -/

@[simp] theorem State.configureInput_cfg (p : Provider) : (s.configureInput p).cfg = s.cfg := by
  unfold State.configureInput; split <;> rfl
@[simp] theorem State.configureInput_acc (p : Provider) : (s.configureInput p).acc = s.acc := by
  unfold State.configureInput; split <;> rfl
@[simp] theorem State.configureInput_pc (p : Provider) : (s.configureInput p).pc = s.pc := by
  unfold State.configureInput; split <;> rfl
@[simp] theorem State.configureInput_mem (p : Provider) : (s.configureInput p).mem = s.mem := by
  unfold State.configureInput; split <;> rfl
@[simp] theorem State.configureInput_memLen (p : Provider) : (s.configureInput p).memLen = s.memLen := by
  unfold State.configureInput; split <;> rfl
@[simp] theorem State.configureInput_status (p : Provider) : (s.configureInput p).status = s.status := by
  unfold State.configureInput; split <;> rfl
@[simp] theorem State.configureInput_frequencyHz (p : Provider) : (s.configureInput p).frequencyHz = s.frequencyHz := by
  unfold State.configureInput; split <;> rfl
@[simp] theorem State.configureInput_out (p : Provider) : (s.configureInput p).out = s.out := by
  unfold State.configureInput; split <;> rfl
@[simp] theorem State.configureInput_reports (p : Provider) : (s.configureInput p).reports = s.reports := by
  unfold State.configureInput; split <;> rfl
@[simp] theorem State.configureInput_stopPending (p : Provider) : (s.configureInput p).stopPending = s.stopPending := by
  unfold State.configureInput; split <;> rfl
@[simp] theorem State.configureInput_width (p : Provider) : (s.configureInput p).width = s.width := by
  unfold State.configureInput; split <;> rfl
@[simp] theorem State.configureInput_request (p : Provider) : (s.configureInput p).request = s.request := by
  unfold State.configureInput; split <;> rfl
@[simp] theorem State.configureInput_input (p : Provider) :
    (s.configureInput p).input = if s.request = none then p else s.input := by
  unfold State.configureInput; split <;> simp_all

/-! ### settle -/

/-- A complete step is what its instruction left. -/
theorem State.settle_of_complete {t : State} (h : t.request = none) : s.settle t = t := by
  simp only [State.settle, h]

/-- A waiting step is the state it began in, with the request. -/
theorem State.settle_of_waiting {t : State} {r : Request} (h : t.request = some r) : s.settle t = s.await r := by
  simp only [State.settle, h]

@[simp] theorem State.settle_request (t : State) : (s.settle t).request = t.request := by
  unfold State.settle; split <;> simp_all

/-- The end of a step as one case split: the shape the claims use. -/
theorem State.settle_eq (t : State) : s.settle t = if t.request = none then t else { s with request := t.request } := by
  unfold State.settle; split <;> simp_all [State.await]

/-! ### fetch -/

@[simp] theorem State.fetch_fst : s.fetch.1 = Memory.read s.mem s.pc := rfl
@[simp] theorem State.fetch_snd : s.fetch.2 = s.touch s.pc := rfl

/-- The growth of memory as one record: the shape the claims use. -/
theorem State.touch_eq (a : Nat) : s.touch a = { s with memLen := max s.memLen (a + 1) } := by
  unfold State.touch; congr 1; split <;> omega

end Sys2Proof.Machine
end

