-- ==== Sys2Proof/Laws/Memory.lean ====
section
/-! SUPPORT. What reading and writing memory do, and that every memory operation keeps the canonical form. -/

namespace Sys2Proof.Machine

/-! ### Reading after writing -/

theorem Memory.read_insert (a : Nat) (v : Nat) (m : Memory) (b : Nat) :
    Memory.read (Memory.insert a v m) b = if b = a then v else Memory.read m b := by
  induction m with
  | nil => simp [Memory.insert, Memory.read]
  | cons c m ih =>
    obtain ⟨k, w⟩ := c
    simp only [Memory.insert]
    split
    · simp [Memory.read]
    · split
      · subst_vars
        simp only [Memory.read]
        split <;> simp_all
      · simp only [Memory.read, ih]
        split <;> split <;> simp_all

theorem Memory.read_erase (a : Nat) (m : Memory) (b : Nat) :
    Memory.read (Memory.erase a m) b = if b = a then 0 else Memory.read m b := by
  induction m with
  | nil => simp [Memory.erase, Memory.read]
  | cons c m ih =>
    obtain ⟨k, w⟩ := c
    unfold Memory.erase at ih ⊢
    rw [List.filter_cons]
    by_cases hk : k = a
    · subst hk
      simp only [ne_eq, not_true_eq_false, decide_false, Bool.false_eq_true, if_false, ih, Memory.read]
      split <;> simp_all
    · simp only [ne_eq, hk, not_false_eq_true, decide_true, if_true, Memory.read, ih]
      split <;> split <;> simp_all

/-- Reading after a write gives the word written at its index and the word before elsewhere. -/
theorem Memory.read_write (a : Nat) (v : Nat) (m : Memory) (b : Nat) :
    Memory.read (Memory.write a v m) b = if b = a then v else Memory.read m b := by
  unfold Memory.write
  split
  · simp_all [Memory.read_erase]
  · exact Memory.read_insert a v m b

@[simp] theorem Memory.read_write_same (a : Nat) (v : Nat) (m : Memory) :
    Memory.read (Memory.write a v m) a = v := by
  simp [Memory.read_write]

theorem Memory.read_write_other {a b : Nat} (v : Nat) (m : Memory) (h : b ≠ a) :
    Memory.read (Memory.write a v m) b = Memory.read m b := by
  simp [Memory.read_write, h]

/-! ### Entries -/

theorem Memory.mem_insert {a : Nat} {v : Nat} {m : Memory} {c : Nat × Nat}
    (h : c ∈ Memory.insert a v m) : c = (a, v) ∨ c ∈ m := by
  induction m with
  | nil => simpa [Memory.insert] using h
  | cons d m ih =>
    obtain ⟨k, w⟩ := d
    simp only [Memory.insert] at h
    split at h
    · simpa using h
    · split at h
      · rcases List.mem_cons.mp h with h | h
        · exact .inl h
        · exact .inr (List.mem_cons_of_mem _ h)
      · rcases List.mem_cons.mp h with h | h
        · exact .inr (h ▸ List.mem_cons_self)
        · exact (ih h).imp_right (List.mem_cons_of_mem _)

/-- An entry after a write is the word written, nonzero, or an entry from before. -/
theorem Memory.mem_write {a : Nat} {v : Nat} {m : Memory} {c : Nat × Nat}
    (h : c ∈ Memory.write a v m) : (c = (a, v) ∧ v ≠ 0) ∨ c ∈ m := by
  unfold Memory.write at h
  split at h
  · exact .inr (List.mem_filter.mp h).1
  · exact (Memory.mem_insert h).imp_left (fun hc => ⟨hc, by assumption⟩)

/-- A word that is read is 0 or listed. -/
theorem Memory.read_mem (m : Memory) (a : Nat) :
    Memory.read m a = 0 ∨ (a, Memory.read m a) ∈ m := by
  induction m with
  | nil => exact .inl rfl
  | cons c m ih =>
    obtain ⟨k, w⟩ := c
    simp only [Memory.read]
    split
    · subst_vars; exact .inr List.mem_cons_self
    · exact ih.imp_right (List.mem_cons_of_mem _)

/-! ### The canonical form is kept -/

theorem Memory.insert_sorted (a : Nat) (v : Nat) (m : Memory)
    (h : m.Pairwise (fun x y => x.1 < y.1)) :
    (Memory.insert a v m).Pairwise (fun x y => x.1 < y.1) := by
  induction m with
  | nil => simp [Memory.insert]
  | cons c m ih =>
    obtain ⟨k, w⟩ := c
    obtain ⟨hk, hm⟩ := List.pairwise_cons.mp h
    simp only [Memory.insert]
    split
    · rename_i hlt
      refine List.pairwise_cons.mpr ⟨fun d hd => ?_, h⟩
      rcases List.mem_cons.mp hd with rfl | hd
      · exact hlt
      · exact lt_trans hlt (hk d hd)
    · split
      · rename_i heq
        exact List.pairwise_cons.mpr ⟨fun d hd => heq ▸ hk d hd, hm⟩
      · refine List.pairwise_cons.mpr ⟨fun d hd => ?_, ih hm⟩
        rcases Memory.mem_insert hd with rfl | hd
        · show k < a; omega
        · exact hk d hd

theorem Memory.write_wf (a : Nat) (v : Nat) {m : Memory} (h : m.wf) : (Memory.write a v m).wf := by
  refine ⟨?_, fun c hc => ?_⟩
  · unfold Memory.write
    split
    · exact h.1.filter _
    · exact Memory.insert_sorted a v m h.1
  · rcases Memory.mem_write hc with ⟨rfl, hv⟩ | hc
    · exact hv
    · exact h.2 c hc

theorem Memory.ofWords_wf (a : Nat) (ws : List Nat) : (Memory.ofWords a ws).wf := by
  induction ws generalizing a with
  | nil => exact ⟨List.Pairwise.nil, by simp [Memory.ofWords]⟩
  | cons w ws ih => exact Memory.write_wf a w (ih (a + 1))

theorem State.reset_mem_wf : State.reset.mem.wf := ⟨List.Pairwise.nil, by simp [State.reset, State.powerOn]⟩

theorem State.memWrite_wf (a : Nat) (v : Nat) {s : State} (h : s.mem.wf) : (s.memWrite a v).mem.wf :=
  Memory.write_wf a v h

theorem State.storeInput_wf (a : Nat) (v : Int) (w : Nat) {s : State} (h : s.mem.wf) :
    (s.storeInput a v w).mem.wf := by
  rw [State.storeInput_mem]; split
  · exact h
  · exact Memory.write_wf a w h

end Sys2Proof.Machine
end

