-- ==== Sys2Proof/Laws/Engine.lean ====
section
/-! SUPPORT. What the host's operations do, said once: the run loop's steps, stop(), the answers to requests, and
the memory of a snapshot. -/

namespace Sys2Proof.Machine

theorem State.scheduledStep_of_running {s : State} (h : s.status = .running) : s.scheduledStep = step s := by
  simp [State.scheduledStep, h]

theorem State.scheduledStep_of_not_running {s : State} (h : s.status ≠ .running) : s.scheduledStep = .next s := by
  cases hs : s.status <;> simp_all [State.scheduledStep]

theorem State.runLoop_succ {s t : State} (n : Nat) (h : s.scheduledStep = .next t) :
    s.runLoop (n + 1) = t.runLoop n := by
  simp only [State.runLoop, h]

theorem State.stop_of_not_running {s : State} (h : s.status ≠ .running) : s.stop = s := by
  cases hs : s.status <;> simp_all [State.stop]

theorem State.stop_of_running {s : State} (h : s.status = .running) (hr : s.request = none) :
    s.stop = { s with status := .idle } := by
  simp [State.stop, h, hr]

theorem State.stop_of_waiting {s : State} {r : Request} (h : s.status = .running) (hr : s.request = some r) :
    s.stop = { s with stopPending := true } := by
  simp [State.stop, h, hr]

/-! ### The host's answers -/

theorem State.answerInteger_of_asked {s : State} {ns : List Int} {ts : List Text} (n : Int)
    (hr : s.request = some .integer) (hi : s.input = .interactive ns ts) :
    s.answerInteger n = step { s with input := .interactive (ns ++ [n]) ts } := by
  simp only [State.answerInteger, hr, hi]

theorem State.answerInteger_of_not_asked {s : State} (n : Int) (hr : s.request ≠ some .integer) :
    s.answerInteger n = .next s := by
  unfold State.answerInteger; split <;> simp_all

theorem State.answerAscii_of_asked {s : State} {ns : List Int} {ts : List Text} {t : Text}
    (hr : s.request = some .asciiString) (hi : s.input = .interactive ns ts) (ht : validAscii s.width t = true) :
    s.answerAscii t = step { s with input := .interactive ns (ts ++ [t]) } := by
  simp only [State.answerAscii, hr, hi, ht, if_true]

theorem State.answerAscii_of_invalid {s : State} {t : Text} (ht : validAscii s.width t = false) :
    s.answerAscii t = .next s := by
  unfold State.answerAscii; split <;> simp [ht]

theorem State.answerAscii_of_not_asked {s : State} (t : Text) (hr : s.request ≠ some .asciiString) :
    s.answerAscii t = .next s := by
  unfold State.answerAscii; split <;> simp_all

/-! ### Snapshots -/

/-- The word at an index of a memory made of a list of words. -/
theorem Memory.read_ofWords (ws : List Nat) (k a : Nat) :
    Memory.read (Memory.ofWords k ws) a = if k ≤ a then ws.getD (a - k) 0 else 0 := by
  induction ws generalizing k with
  | nil => simp [Memory.ofWords, Memory.read]
  | cons w ws ih =>
    rw [Memory.ofWords, Memory.read_write, ih]
    rcases lt_trichotomy a k with h | rfl | h
    · rw [if_neg (by omega), if_neg (by omega), if_neg (by omega)]
    · simp
    · rw [if_neg (by omega), if_pos (by omega), if_pos (by omega), show a - k = a - (k + 1) + 1 by omega]
      rfl

end Sys2Proof.Machine
end

