-- ==== Sys2Proof/Laws/Io.lean ====
section
/-! SUPPORT. What the input provider answers and what INP and INA do with it, said once. -/

namespace Sys2Proof.Machine

/-- requestInteger() is unanswered exactly in the interactive mode with no integer left. -/
theorem Provider.takeInteger_eq_none_iff (p : Provider) :
    p.takeInteger = none ↔ ∃ ts, p = .interactive [] ts := by
  rcases p with ⟨_ | ⟨n, ns⟩, ts⟩ | (_ | ⟨line, ls⟩) <;> simp [Provider.takeInteger]

/-- requestAsciiString() is unanswered exactly in the interactive mode with no valid string left. -/
theorem Provider.takeAscii_eq_none_iff (W : Nat) (p : Provider) :
    p.takeAscii W = none ↔ ∃ ns ts, p = .interactive ns ts ∧ ∀ t ∈ ts, validAscii W t = false := by
  rcases p with ⟨ns, ts⟩ | (_ | ⟨line, ls⟩)
  · simp only [Provider.takeAscii]
    constructor
    · intro h
      refine ⟨ns, ts, rfl, fun t ht => ?_⟩
      split at h
      · rename_i he
        simpa using List.dropWhile_eq_nil_iff.mp he t ht
      · cases h
    · rintro ⟨_, _, ⟨⟩, h⟩
      rw [List.dropWhile_eq_nil_iff.mpr (fun t ht => by simp [h t ht])]
  · simp [Provider.takeAscii]
  · simp only [Provider.takeAscii]
    constructor
    · intro h; split at h <;> cases h
    · rintro ⟨_, _, ⟨⟩, _⟩

/-- INP waits or completes, and nothing else. -/
theorem execInp_cases (a : Nat) (s : State) :
    (s.input.takeInteger = none ∧ execInp a s = .next (s.await .integer)) ∨
    ∃ n p, s.input.takeInteger = some (n, p) ∧
      execInp a s = .next (((s.formOperand .inp a).answered p).storeInput a (reduceToRange s.width n)
        (toUnsigned s.width (reduceToRange s.width n))).advance := by
  unfold execInp
  split
  · exact .inl ⟨by assumption, rfl⟩
  · exact .inr ⟨_, _, by assumption, rfl⟩

/-- INA waits or completes, and nothing else. -/
theorem execIna_cases (a : Nat) (s : State) :
    (s.input.takeAscii s.width = none ∧ execIna a s = .next (s.await .asciiString)) ∨
    ∃ t p, s.input.takeAscii s.width = some (t, p) ∧
      execIna a s = .next (((s.formOperand .ina a).answered p).storeInput a (toSigned s.width (packAscii t))
        (packAscii t)).advance := by
  unfold execIna
  split
  · exact .inl ⟨by assumption, rfl⟩
  · exact .inr ⟨_, _, by assumption, rfl⟩

end Sys2Proof.Machine
end

