-- ==== Sys2Proof/Laws/PerInstr.lean ====
section
/-! SUPPORT. A statement about every instruction as syntax, one lemma per constructor: an instruction is made again
from its mnemonic and its address field, which is what lets a decoder that looks the mnemonic up give it back. -/

namespace Sys2Proof.Laws.Rebuild

/-- The mnemonic and the address field of an instruction give the instruction back; one without a mnemonic is a word of
opcode 30 or 31, which the decoder makes again where O = 5. -/
def Statement (i : Instr) : Prop :=
  match i.mnemonic with
  | some m => Instr.ofMnemonic i.address m = i
  | none => ∀ cfg op, cfg.opcodeWidth = .five → opcodeOf cfg i = some op →
      decodeMissing cfg op i.address = .ok i

theorem hlt (a : Nat) : Statement (.hlt a) := rfl
theorem lda (a : Nat) : Statement (.lda a) := rfl
theorem sta (a : Nat) : Statement (.sta a) := rfl
theorem add (a : Nat) : Statement (.add a) := rfl
theorem sub (a : Nat) : Statement (.sub a) := rfl
theorem mul (a : Nat) : Statement (.mul a) := rfl
theorem div (a : Nat) : Statement (.div a) := rfl
theorem mod (a : Nat) : Statement (.mod a) := rfl
theorem out (a : Nat) : Statement (.out a) := rfl
theorem jmp (a : Nat) : Statement (.jmp a) := rfl
theorem jeq (a : Nat) : Statement (.jeq a) := rfl
theorem jlt (a : Nat) : Statement (.jlt a) := rfl
theorem oua (a : Nat) : Statement (.oua a) := rfl
theorem inp (a : Nat) : Statement (.inp a) := rfl
theorem ina (a : Nat) : Statement (.ina a) := rfl
theorem nop (a : Nat) : Statement (.nop a) := rfl
theorem adds (a : Nat) : Statement (.adds a) := rfl
theorem subs (a : Nat) : Statement (.subs a) := rfl
theorem muls (a : Nat) : Statement (.muls a) := rfl
theorem divs (a : Nat) : Statement (.divs a) := rfl
theorem mods (a : Nat) : Statement (.mods a) := rfl
theorem and (a : Nat) : Statement (.and a) := rfl
theorem or (a : Nat) : Statement (.or a) := rfl
theorem xor (a : Nat) : Statement (.xor a) := rfl
theorem not (a : Nat) : Statement (.not a) := rfl
theorem adb (a : Nat) : Statement (.adb a) := rfl
theorem shr (a : Nat) : Statement (.shr a) := rfl
theorem shl (a : Nat) : Statement (.shl a) := rfl
theorem ror (a : Nat) : Statement (.ror a) := rfl
theorem rol (a : Nat) : Statement (.rol a) := rfl
theorem cmp (a : Nat) : Statement (.cmp a) := rfl
theorem cmps (a : Nat) : Statement (.cmps a) := rfl
theorem invalid30 (a : Nat) : Statement (.invalid30 a) := by
  intro cfg op h5 hop
  cases hop
  simp [decodeMissing, h5, Instr.address]
theorem invalid31 (a : Nat) : Statement (.invalid31 a) := by
  intro cfg op h5 hop
  cases hop
  simp [decodeMissing, h5, Instr.address]

end Sys2Proof.Laws.Rebuild
end

