-- ==== Sys2Proof/Tests/Slice0.lean ====
section
/-! SUPPORT. The model's own tests. Expected results are the spec's: 95_test_vectors.md sections 1 and 2 (its vectors of
one step), the encodings of 30_encoding.md R70, R76 and opcode_table.json, else a hand calculation from the rule named.
The witnesses at the end meet the hypotheses of the obligations. -/

namespace Sys2Proof.Tests

open Sys2Proof Sys2Proof.Machine

/-! ### Small states -/

/-- A power-on machine of the standard parameters with the given ACC and memory. -/
abbrev machine (W : Nat) (O : OpcodeWidth) (acc : Int) (mem : Memory) : State :=
  { State.powerOn (Config.standard W O) with acc := acc, mem := mem }

/-- The same with the floor rounding. -/
abbrev floored (s : State) : State := { s with cfg := { s.cfg with divRounding := .floor } }

/-- The same with the msb alignment. -/
abbrev msbFirst (s : State) : State := { s with cfg := { s.cfg with ouaGroupAlign := .msb } }

/-- The same with interactive answers. -/
abbrev answers (ns : List Int) (ts : List Text) (s : State) : State := { s with input := .interactive ns ts }

/-- The same with a batch queue. -/
abbrev queue (rows : List Text) (s : State) : State := { s with input := .batch rows }

/-- The same with the engine Running and a request in progress. -/
abbrev asking (r : Request) (s : State) : State := { s with status := .running, request := some r }

/-- The same with a stop() held back. -/
abbrev stopping (s : State) : State := { s with stopPending := true }

/-- The same under another configuration. -/
abbrev under (cfg : Config) (s : State) : State := { s with cfg := cfg }

/-- A view of the state an outcome continues in. -/
abbrev seen {α : Type} (f : State → α) : Result State → Option α
  | .next t => some (f t)
  | .fault _ => none
  | .refused _ => none

/-- A legal catalogue with CMP and CMPS in the places of SHR and SHL (30_encoding.md R77, 92_eei_decisions.md D1). -/
abbrev compareCatalogue : List Mnemonic :=
  defaultCatalogue.take 26 ++ [.cmp, .cmps, .ror, .rol]

/-- W = 8, O = 5 with that catalogue. -/
abbrev compareConfig : Config := { Config.standard 8 .five with catalogue := compareCatalogue }

/-! ### WellFormed: an ill-formed term for each check -/

/-- A mnemonic without an index (R77), an index that O = 4 cannot hold (R75 item 2), an invalid row under O = 4 (R79). -/
theorem test_wellFormed_refuses_opcode :
    opcodeFits (Config.standard 16 .five) (.cmp 0) = false ∧ opcodeFits (Config.standard 16 .five) (.cmps 0) = false ∧
      opcodeFits (Config.standard 16 .four) (.adds 0) = false ∧
      opcodeFits (Config.standard 16 .four) (.invalid30 0) = false ∧
      WellFormed (Config.standard 16 .four) (.adds 0) = false := by decide

/-- An address of 2^AW (R71). -/
theorem test_wellFormed_refuses_address :
    addressFits (Config.standard 8 .five) (.lda 8) = false ∧ addressFits (Config.standard 16 .four) (.jmp 4096) = false ∧
      WellFormed (Config.standard 8 .five) (.lda 8) = false := by decide

theorem test_wellFormed_accepts :
    WellFormed (Config.standard 8 .five) (.lda 7) = true ∧ WellFormed (Config.standard 16 .five) (.adds 2047) = true ∧
      WellFormed (Config.standard 8 .five) (.invalid31 7) = true ∧ WellFormed compareConfig (.cmps 7) = true := by decide

/-- A catalogue without ROL is not legal (R75 item 4, R77), one with CMP and CMPS beside it is. -/
theorem test_legal_needs_rol :
    ¬Config.legal { Config.standard 8 .five with catalogue := defaultCatalogue.take 28 ++ [.cmp, .cmps] } ∧
      compareConfig.legal := by decide

/-! ### Decoding: a word for every constructor, written out from its encoding -/

/-- encoding_W16_O4 of opcode_table.json, rows 0 to 7. -/
theorem test_decode_base_low :
    decode (Config.standard 16 .four) 0b0000_000100100011 = .ok (.hlt 0x123) ∧
    decode (Config.standard 16 .four) 0b0001_000000000110 = .ok (.lda 6) ∧
    decode (Config.standard 16 .four) 0b0010_000000001000 = .ok (.sta 8) ∧
    decode (Config.standard 16 .four) 0b0011_000000000111 = .ok (.add 7) ∧
    decode (Config.standard 16 .four) 0b0100_000000001011 = .ok (.sub 11) ∧
    decode (Config.standard 16 .four) 0b0101_000000001100 = .ok (.mul 12) ∧
    decode (Config.standard 16 .four) 0b0110_100000000000 = .ok (.div 2048) ∧
    decode (Config.standard 16 .four) 0b0111_000000000001 = .ok (.mod 1) := by decide

/-- Rows 8 to 15. -/
theorem test_decode_base_high :
    decode (Config.standard 16 .four) 0b1000_000000001000 = .ok (.out 8) ∧
    decode (Config.standard 16 .four) 0b1001_000000000101 = .ok (.jmp 5) ∧
    decode (Config.standard 16 .four) 0b1010_000000000110 = .ok (.jeq 6) ∧
    decode (Config.standard 16 .four) 0b1011_000000000101 = .ok (.jlt 5) ∧
    decode (Config.standard 16 .four) 0b1100_000000001001 = .ok (.oua 9) ∧
    decode (Config.standard 16 .four) 0b1101_000000000101 = .ok (.inp 5) ∧
    decode (Config.standard 16 .four) 0b1110_000000000000 = .ok (.ina 0) ∧
    decode (Config.standard 16 .four) 0b1111_111111111111 = .ok (.nop 4095) := by decide

/-- encoding_W8_O5, rows 16 to 24. -/
theorem test_decode_extended_low :
    decode (Config.standard 8 .five) 0b10000_111 = .ok (.adds 7) ∧
    decode (Config.standard 8 .five) 0b10001_001 = .ok (.subs 1) ∧
    decode (Config.standard 8 .five) 0b10010_110 = .ok (.muls 6) ∧
    decode (Config.standard 8 .five) 0b10011_010 = .ok (.divs 2) ∧
    decode (Config.standard 8 .five) 0b10100_011 = .ok (.mods 3) ∧
    decode (Config.standard 8 .five) 0b10101_100 = .ok (.and 4) ∧
    decode (Config.standard 8 .five) 0b10110_101 = .ok (.or 5) ∧
    decode (Config.standard 8 .five) 0b10111_000 = .ok (.xor 0) ∧
    decode (Config.standard 8 .five) 0b11000_111 = .ok (.not 7) := by decide

/-- Rows 25 to 31. -/
theorem test_decode_extended_high :
    decode (Config.standard 8 .five) 0b11001_001 = .ok (.adb 1) ∧
    decode (Config.standard 8 .five) 0b11010_110 = .ok (.shr 6) ∧
    decode (Config.standard 8 .five) 0b11011_010 = .ok (.shl 2) ∧
    decode (Config.standard 8 .five) 0b11100_011 = .ok (.ror 3) ∧
    decode (Config.standard 8 .five) 0b11101_000 = .ok (.rol 0) ∧
    decode (Config.standard 8 .five) 0b11110_000 = .ok (.invalid30 0) ∧
    decode (Config.standard 8 .five) 0b11111_111 = .ok (.invalid31 7) := by decide

/-- CMP and CMPS at indices 26 and 27 of a catalogue that holds them. -/
theorem test_decode_compare :
    decode compareConfig 0b11010_101 = .ok (.cmp 5) ∧ decode compareConfig 0b11011_100 = .ok (.cmps 4) := by decide

/-- A catalogue with no entry at index 3 is not legal; the decoder still answers, by name. -/
theorem test_decode_rejects_by_name :
    decode { Config.standard 8 .four with catalogue := [.hlt] } 0b0011_0000 = .error (.invalidOpcode 3) := by decide

/-- opcode_table.json's numbering: the opcode in bits 4..0, the address from bit 5. -/
theorem test_decodeTableWord :
    decodeTableWord 8 16 = some (.adds 0) ∧ decodeTableWord 16 (16 + 32 * 7) = some (.adds 7) ∧
      decodeTableWord 8 31 = some (.invalid31 0) := by decide

/-- A table word stored for the next step runs, out of Halted too: opcode 15 is NOP. -/
theorem test_withFetchWord :
    seen (fun t => (t.pc, t.status)) (step ((State.reset.halt).withFetchWord 8 15)) = some (1, .idle) := by decide

/-! ### Single steps (95_test_vectors.md section 2) -/

theorem test_lda_sign : seen State.acc (step (machine 8 .four 0 [(0, 0x15), (5, 0xFF)])) = some (-1) := by decide

theorem test_lda_grows_memory :
    seen (fun t => (t.acc, t.memLen)) (step (machine 16 .four 7 [(0, 0x1014)])) = some (0, 21) := by decide

theorem test_sta : seen State.mem (step (machine 8 .four (-128) [(0, 0x23)])) = some [(0, 0x23), (3, 0x80)] := by decide

/-- A store onto the instruction itself. -/
theorem test_sta_self : seen State.mem (step (machine 16 .four (-1) [(0, 0x2000)])) = some [(0, 0xFFFF)] := by decide

theorem test_add_wraps :
    seen (fun t => (t.acc, t.pc)) (step (machine 8 .four 127 [(0, 0x35), (5, 1)])) = some (-128, 1) := by decide

theorem test_sub_wraps : seen State.acc (exec (.sub 5) (machine 8 .four 0 [(5, 0x80)])) = some (-128) := by decide

theorem test_mul_reduces : seen State.acc (exec (.mul 5) (machine 8 .four 100 [(5, 3)])) = some 44 := by decide

/-- W = 64: (−2^63)·(−2^63) = 2^126 reduces to 0 (section 2.1). -/
theorem test_mul_widest :
    seen State.acc (exec (.mul 5) (machine 64 .four (-2 ^ 63) [(5, 2 ^ 63)])) = some 0 := by decide

theorem test_div_rounding :
    seen State.acc (exec (.div 5) (machine 8 .four 7 [(5, 0xFE)])) = some (-3) ∧
    seen State.acc (exec (.div 5) (floored (machine 8 .four 7 [(5, 0xFE)]))) = some (-4) := by decide

theorem test_div_corners :
    seen State.acc (exec (.div 5) (machine 8 .four (-128) [(5, 0xFF)])) = some (-128) ∧
    seen (fun t => (t.acc, t.status)) (exec (.div 5) (machine 8 .four 55 [])) = some (0, .idle) := by decide

theorem test_mod_rounding :
    seen State.acc (exec (.mod 5) (machine 8 .four (-7) [(5, 2)])) = some (-1) ∧
    seen State.acc (exec (.mod 5) (floored (machine 8 .four (-7) [(5, 2)]))) = some 1 := by decide

theorem test_mod_zero : seen State.acc (exec (.mod 5) (machine 8 .four 55 [])) = some 0 := by decide

/-- The operand is the address field, not the word there. -/
theorem test_adds : seen State.acc (step (machine 8 .five 125 [(0, 0x87), (7, 1)])) = some (-124) := by decide

theorem test_subs : seen State.acc (exec (.subs 1) (machine 8 .five (-128) [])) = some 127 := by decide

theorem test_muls : seen State.acc (exec (.muls 2) (machine 8 .five 64 [])) = some (-128) := by decide

theorem test_divs :
    seen State.acc (exec (.divs 2) (machine 8 .five (-7) [])) = some (-3) ∧
    seen State.acc (exec (.divs 0) (machine 8 .five 42 [])) = some 0 := by decide

theorem test_mods :
    seen State.acc (exec (.mods 2) (machine 8 .five (-7) [])) = some (-1) ∧
    seen State.acc (exec (.mods 2) (floored (machine 8 .five (-7) []))) = some 1 := by decide

theorem test_adb : seen State.acc (exec (.adb 5) (machine 8 .five 100 [(5, 0x64)])) = some (-56) := by decide

theorem test_hlt :
    seen (fun t => (t.pc, t.status, t.stepResult)) (step { machine 16 .four 0 [(4, 0x0123)] with pc := 4 }) =
      some (4, .halted, some false) := by decide

theorem test_halted_step_changes_nothing :
    seen (fun t => (t.pc, t.acc, t.stepResult)) (step (machine 16 .four 9 [(0, 0x9005)]).halt) =
      some (0, 9, some false) := by decide

theorem test_jmp :
    seen (fun t => (t.pc, t.stepResult)) (step { machine 16 .four 0 [(2, 0x9005)] with pc := 2 }) =
      some (5, some true) := by decide

theorem test_jeq :
    seen State.pc (exec (.jeq 6) { machine 16 .four 0 [] with pc := 1 }) = some 6 ∧
    seen State.pc (exec (.jeq 6) { machine 16 .four (-32768) [] with pc := 1 }) = some 2 := by decide

theorem test_jlt :
    seen State.pc (exec (.jlt 5) { machine 16 .four (-32768) [] with pc := 3 }) = some 5 ∧
    seen State.pc (exec (.jlt 5) { machine 16 .four 0 [] with pc := 3 }) = some 4 := by decide

theorem test_nop :
    seen (fun t => (t.pc, t.memLen)) (step { machine 16 .four 0 [(7, 0xF123)] with pc := 7 }) = some (8, 16) := by decide

theorem test_invalid30 :
    seen (fun t => (t.pc, t.acc, t.status, t.reports, t.stepResult))
      (step { machine 8 .five (-88) [(5, 0xF0)] with pc := 5 }) =
      some (5, -88, .halted, [⟨5, 30⟩], some false) := by decide

theorem test_invalid31 :
    seen (fun t => (t.pc, t.status, t.reports)) (step (machine 8 .five 0 [(0, 0xFF)])) =
      some (0, .halted, [⟨0, 31⟩]) := by decide

/-- "2\n" and "-128\n". -/
theorem test_out :
    seen State.out (exec (.out 8) (machine 16 .four 0 [(8, 2)])) = some [[50, 10]] ∧
    seen State.out (exec (.out 1) (machine 8 .four 0 [(1, 0x80)])) = some [[45, 49, 50, 56, 10]] := by decide

/-- "0\n", and "4100\n" of program P5. -/
theorem test_out_zero :
    seen State.out (exec (.out 1) (machine 8 .four 0 [])) = some [[48, 10]] ∧
    seen State.out (exec (.out 0) (machine 16 .four 0 [(0, 0x1004)])) = some [[52, 49, 48, 48, 10]] := by decide

/-- "iH", and "A" of a word whose low group is 0. -/
theorem test_oua :
    seen State.out (exec (.oua 9) (machine 16 .four 0 [(9, 0x6948)])) = some [[0x69, 0x48]] ∧
    seen State.out (exec (.oua 9) (machine 16 .four 0 [(9, 0x4100)])) = some [[0x41]] := by decide

/-- W = 12, the groups of 0x141 from the low end and from the high end. -/
theorem test_oua_alignment :
    seen State.out (exec (.oua 9) (machine 12 .four 0 [(9, 0x141)])) = some [[1, 0x41]] ∧
    seen State.out (exec (.oua 9) (msbFirst (machine 12 .four 0 [(9, 0x141)]))) = some [[0x14, 1]] := by decide

theorem test_inp_acc :
    seen State.acc (exec (.inp 0) (answers [200] [] (machine 8 .four 0 []))) = some (-56) ∧
    seen State.acc (exec (.inp 0) (answers [-129] [] (machine 8 .four 0 []))) = some 127 := by decide

/-- INP 5 of −1, and the batch line "x7". -/
theorem test_inp_memory_and_batch :
    seen (fun t => (t.mem, t.acc)) (exec (.inp 5) (answers [-1] [] (machine 8 .four 9 []))) = some ([(5, 0xFF)], 9) ∧
    seen (fun t => (t.acc, t.input)) (exec (.inp 0) (queue [[120, 55]] (machine 8 .four 9 []))) =
      some (0, .batch []) := by decide

/-- "Hi" to ACC, "A" to memory. -/
theorem test_ina :
    seen State.acc (exec (.ina 0) (answers [] [[0x48, 0x69]] (machine 16 .four 0 []))) = some 26952 ∧
    seen State.mem (exec (.ina 3) (answers [] [[0x41]] (machine 16 .four 0 []))) = some [(3, 0x41)] := by decide

/-- The batch lines "AB" at W = 8, and code 200 then "A" at W = 16. -/
theorem test_ina_batch :
    seen (fun t => (t.acc, t.input)) (exec (.ina 0) (queue [[65, 66]] (machine 8 .four 0 []))) =
      some (65, .batch [[66]]) ∧
    seen State.acc (exec (.ina 0) (queue [[200, 65]] (machine 16 .four 0 []))) = some 16640 := by decide

theorem test_and : seen State.acc (exec (.and 5) (machine 8 .five (-128) [(5, 0x80)])) = some (-128) := by decide

theorem test_or : seen State.acc (exec (.or 5) (machine 8 .five 15 [(5, 0xF0)])) = some (-1) := by decide

theorem test_xor : seen State.acc (exec (.xor 5) (machine 8 .five (-1) [(5, 0x80)])) = some 127 := by decide

theorem test_not : seen State.acc (exec (.not 3) (machine 8 .five 127 [(3, 1)])) = some (-128) := by decide

theorem test_shr :
    seen State.acc (exec (.shr 1) (machine 8 .five (-1) [])) = some 127 ∧
    seen State.acc (exec (.shr 20) (machine 16 .five (-1) [])) = some 0 := by decide

theorem test_shl :
    seen State.acc (exec (.shl 2) (machine 8 .five 42 [])) = some (-88) ∧
    seen State.acc (exec (.shl 16) (machine 16 .five 1 [])) = some 0 := by decide

theorem test_ror :
    seen State.acc (exec (.ror 3) (machine 8 .five 1 [])) = some 32 ∧
    seen State.acc (exec (.ror 17) (machine 16 .five 1 [])) = some (-32768) := by decide

theorem test_rol : seen (fun t => (t.acc, t.pc)) (step (machine 8 .five 1 [(0, 0xE9)])) = some (1, 1) := by decide

theorem test_cmp :
    seen State.acc (exec (.cmp 5) (machine 8 .five (-1) [(5, 0xFF)])) = some 1 ∧
    seen State.acc (exec (.cmp 5) (machine 8 .five (-1) [(5, 0x7F)])) = some 0 := by decide

theorem test_cmps :
    seen State.acc (exec (.cmps 5) (machine 8 .five 5 [])) = some 1 ∧
    seen State.acc (exec (.cmps 4) (machine 8 .five 5 [])) = some 0 := by decide

/-- INP with no answer waits: PC and memLen stay, the fetch's growth too (44_io.md R211, D21). The catalogue has INP at
index 0, so that the word 0 beyond memLen is INP 0. -/
theorem test_inp_waits :
    seen (fun t => (t.pc, t.memLen, t.request, t.stepResult))
      (step { under { Config.standard 8 .four with catalogue := [.inp] } (answers [] [] (machine 8 .four 0 [])) with
        pc := 40 }) = some (40, 16, some .integer, none) := by decide

/-- The host's answer completes the waiting step (40_step_engine.md R108). -/
theorem test_answer_completes :
    seen (fun t => (t.acc, t.pc, t.request)) (State.answerInteger 7 (asking .integer (answers [] [] (machine 8 .four 0
      [(0, 0xD0)])))) = some (7, 1, none) ∧
    seen (fun t => (t.acc, t.pc, t.request)) (State.answerAscii [65] (asking .asciiString (answers [] [] (machine 8 .four 0
      [(0, 0xE0)])))) = some (65, 1, none) := by decide

/-! ### Witnesses for the obligations' hypotheses -/

/-- legal and w < 2^W, at the least and the greatest word of the narrowest and the widest machine
(DecodeSplitsWordIntoFields, EncodeOfDecodeIsIdentity, LookupFailsOutsideCatalogue); FieldsRoundTrip and OpcodeEightIsOut
take op and a below the fields' bounds. -/
theorem witness_legal_words :
    (Config.standard 8 .five).legal ∧ (Config.standard 64 .four).legal ∧ compareConfig.legal ∧
    0 < 2 ^ (Config.standard 8 .five).wordWidth ∧ 2 ^ 64 - 1 < 2 ^ (Config.standard 64 .four).wordWidth ∧
    31 < 2 ^ (Config.standard 8 .five).opcodeWidth.bits ∧ 7 < 2 ^ (Config.standard 8 .five).addressWidth ∧
    7 < 2 ^ ((Config.standard 8 .five).wordWidth - (Config.standard 8 .five).opcodeWidth.bits) := by decide

/-- A legal configuration and a well-formed instruction, with its word (DecodeOfEncodeIsIdentity). -/
theorem witness_wellFormed :
    (Config.standard 8 .five).legal ∧ WellFormed (Config.standard 8 .five) (.invalid31 7) = true ∧
    encode (Config.standard 8 .five) (.invalid31 7) = some 255 ∧
    compareConfig.legal ∧ WellFormed compareConfig (.cmp 7) = true ∧ encode compareConfig (.cmp 7) = some 0b11010_111 := by
  decide

/-- The indices on either side of each clause of LookupFailsOutsideCatalogue. -/
theorem witness_lookup_edges :
    lookup (Config.standard 8 .five) 29 = some .rol ∧ lookup (Config.standard 8 .five) 30 = none ∧
    lookup (Config.standard 8 .four) 15 = some .nop ∧ lookup (Config.standard 8 .four) 16 = none := by decide

/-- A word on each side of InvalidWordsAreOpcodes30And31. -/
theorem witness_invalid_words :
    (Config.standard 8 .five).legal ∧ (Config.standard 8 .four).legal ∧ 0xF0 < 2 ^ 8 ∧ 0xF0 / 2 ^ (8 - 5) = 30 ∧
    decode (Config.standard 8 .five) 0xF0 = .ok (.invalid30 0) ∧ decode (Config.standard 8 .five) 0xEF = .ok (.rol 7) ∧
    decode (Config.standard 8 .five) 0xF8 = .ok (.invalid31 0) ∧ decode (Config.standard 8 .four) 0xF0 = .ok (.nop 0) := by
  decide

/-- The ends of the ranges of TwosComplementConversionsAreInverse and ReduceToRangeIsCanonicalRepresentative
(95_test_vectors.md S2, S3 and section 2.1). -/
theorem witness_conversions :
    127 < 2 ^ 8 ∧ toSigned 8 127 = 127 ∧ 128 < 2 ^ 8 ∧ toSigned 8 128 = -128 ∧ toSigned 8 255 = -1 ∧
    canonical 8 (-128) ∧ canonical 8 127 ∧ ¬canonical 8 128 ∧ toUnsigned 8 (-128) = 128 ∧ toUnsigned 16 (-3) = 0xFFFD ∧
    canonical 8 44 ∧ (2 : Int) ^ 8 ∣ 44 - 300 ∧ reduceToRange 8 300 = 44 ∧ reduceToRange 8 (-129) = 127 ∧
    reduceToRange 64 (2 ^ 63) = -2 ^ 63 := by decide

/-- States that meet Inv, ACC and word at the ends of the range, at both widths' ends and both parameters' choices: the
hypothesis of LdaLoadsSignedWord, ArithmeticIsBitVectorDatapath, AdbAddsPatternsLikeAdd, LogicIsBitwiseOnPatterns,
ShiftsAreLogicalByAddressField, RorRotatesAccumulator, CompareWritesOneOrZero, JltJumpsOnNegative,
OutAppendsDecimalAndNewline, OuaAppendsNonzeroGroups, InitialisingOperationsSetState. -/
theorem witness_invariant_states :
    (machine 8 .five (-128) [(5, 0x80)]).Inv ∧ (machine 64 .four (2 ^ 63 - 1) [(5, 2 ^ 64 - 1)]).Inv ∧
    (msbFirst (floored (machine 12 .four 0 [(9, 0x141)]))).Inv ∧
    (machine 16 .five 1 []).Inv ∧ (machine 16 .five 1 []).cfg.wordWidth ≤ 16 ∧
    (under compareConfig (machine 8 .five (-128) [(5, 0x80)])).Inv ∧
    (floored (machine 8 .four (-7) [(5, 0xFE)])).cfg.divRounding = .floor ∧ 7 < 2 ^ (8 - OpcodeWidth.five.bits) ∧
    (machine 12 .four 0 []).cfg.ouaGroupAlign = .lsb ∧ (machine 12 .four 0 []).cfg.divRounding = .trunc := by
  refine ⟨?_, ?_, ?_, ?_, ?_, ?_, ?_, ?_, ?_, ?_⟩ <;> decide

/-- DefaultOpcode's hypotheses (DefaultCatalogueIndices) and CatalogueOpcode's, at the narrowest machine, with the
greatest address, for the last entry, for OUT, and for CMP in a catalogue that holds it. -/
theorem witness_catalogue_opcode :
    8 ≤ 8 ∧ 8 ≤ 64 ∧ 29 < 2 ^ OpcodeWidth.five.bits ∧ 7 < 2 ^ (8 - OpcodeWidth.five.bits) ∧
    (Config.standard 8 .five).legal ∧ (Config.standard 8 .five).catalogue[29]? = some .rol ∧
    (Config.standard 8 .five).catalogue[8]? = some .out ∧
    compareConfig.legal ∧ 26 < 2 ^ compareConfig.opcodeWidth.bits ∧ compareConfig.catalogue[26]? = some .cmp ∧
    compareConfig.catalogue[27]? = some .cmps ∧ 7 < 2 ^ (compareConfig.wordWidth - compareConfig.opcodeWidth.bits) := by
  decide

/-- DivModWriteQuotientAndRemainder and DivModObeyDivisionLaw: a divisor of 0, of each sign under each rounding, and
the quotient that overflows. -/
theorem witness_division :
    toSigned 8 (Memory.read (machine 8 .four 55 []).mem 5) = 0 ∧
    (∃ t u, (machine 8 .four 7 [(5, 0xFE)]).Inv ∧
      toSigned 8 (Memory.read (machine 8 .four 7 [(5, 0xFE)]).mem 5) = -2 ∧
      exec (.div 5) (machine 8 .four 7 [(5, 0xFE)]) = .next t ∧ exec (.mod 5) (machine 8 .four 7 [(5, 0xFE)]) = .next u ∧
      t.acc = -3 ∧ u.acc = 1) ∧
    (∃ t u, (floored (machine 8 .four 7 [(5, 0xFE)])).Inv ∧
      exec (.div 5) (floored (machine 8 .four 7 [(5, 0xFE)])) = .next t ∧
      exec (.mod 5) (floored (machine 8 .four 7 [(5, 0xFE)])) = .next u ∧ t.acc = -4 ∧ u.acc = -1) ∧
    (∃ t u, (machine 8 .four (-128) [(5, 0xFF)]).Inv ∧ (machine 8 .four (-128) [(5, 0xFF)]).acc = -2 ^ (8 - 1) ∧
      toSigned 8 (Memory.read (machine 8 .four (-128) [(5, 0xFF)]).mem 5) = -1 ∧
      exec (.div 5) (machine 8 .four (-128) [(5, 0xFF)]) = .next t ∧
      exec (.mod 5) (machine 8 .four (-128) [(5, 0xFF)]) = .next u ∧ t.acc = -128 ∧ u.acc = 0) :=
  ⟨by decide, ⟨_, _, by decide, by decide, rfl, rfl, by decide, by decide⟩,
    ⟨_, _, by decide, rfl, rfl, by decide, by decide⟩,
    ⟨_, _, by decide, by decide, by decide, rfl, rfl, by decide, by decide⟩⟩

/-- ImmediateDivMod: an imm of 0 and one that is not, under each rounding. -/
theorem witness_immediate :
    ((0 : Nat) = 0 ∧ (1 : Nat) ≠ 0) ∧ (floored (machine 8 .five 0 [])).cfg.divRounding = .floor ∧
      (machine 8 .five 0 []).cfg.divRounding = .trunc := by decide

/-- StaStoresAccumulator, HltHaltsInPlace and InvalidOpcodeHaltsPrecisely: another index than the address, and a state
without a request; JeqJumpsOnZero and JltJumpsOnNegative on each side. -/
theorem witness_simple_clauses :
    (4 : Nat) ≠ 3 ∧ State.reset.request = none ∧ (machine 8 .four 0 []).acc = 0 ∧ (machine 8 .four (-1) []).acc < 0 ∧
      (machine 8 .four 1 []).acc ≠ 0 ∧ 0 ≤ (machine 8 .four 1 []).acc := by decide

/-- An answered INP, in both modes, without and with a stop() held back (InpStoresReducedInteger). -/
theorem witness_answered_integer :
    (answers [200] [] (machine 8 .four 0 [])).input.takeInteger = some (200, .interactive [] []) ∧
    (answers [200] [] (machine 8 .four 0 [])).stopPending = false ∧
    (queue [[55]] (machine 8 .four 0 [])).input.takeInteger = some (7, .batch []) ∧
    (stopping (asking .integer (answers [200] [] (machine 8 .four 0 [])))).stopPending = true := by decide

/-- An answered INA, at a full word and in both modes (InaPacksCharactersLittleEndian, ProviderStringsAreShortAscii). -/
theorem witness_answered_string :
    (answers [] [[0x48, 0x69]] (machine 16 .four 0 [])).cfg.legal ∧
    (answers [] [[0x48, 0x69]] (machine 16 .four 0 [])).input.takeAscii 16 = some ([0x48, 0x69], .interactive [] []) ∧
    (queue [[65, 66]] (machine 8 .four 0 [])).cfg.legal ∧
    (queue [[65, 66]] (machine 8 .four 0 [])).input.takeAscii 8 = some ([65], .batch [[66]]) := by decide

/-- A suspended INA whose answer has come and over which a stop() is held back (InaPacksCharactersLittleEndian's clause on
the status): it leaves Idle. -/
theorem witness_string_with_stop :
    (stopping (asking .asciiString (answers [] [[65]] (machine 8 .four 0 [])))).cfg.legal ∧
    (stopping (asking .asciiString (answers [] [[65]] (machine 8 .four 0 [])))).input.takeAscii 8 =
      some ([65], .interactive [] []) ∧
    seen (fun t => (t.status, t.acc)) (exec (.ina 0) (stopping (asking .asciiString (answers [] [[65]]
      (machine 8 .four 0 []))))) = some (.idle, 65) := by decide

/-- BatchParseReadsSignedDecimal, " -42\n" and the text that reads as nonzero; BatchQueueIsFirstInFirstOut, a line
without digits and a character in the word's room. -/
theorem witness_batch :
    (∀ c ∈ ([32] : Text) ++ [10], isSpace c = true) ∧ ([52, 50] : Text) ≠ [] ∧
    (∀ c ∈ ([52, 50] : Text), 48 ≤ c ∧ c ≤ 57) ∧ parseInteger [32, 45, 52, 50, 10] = -42 ∧
    (∀ c ∈ ([45, 120] : Text), ¬(48 ≤ c ∧ c ≤ 57)) ∧ 0 < 8 / 8 ∧ ([200, 65] : Text)[0]? = some 200 := by decide

/-- UnansweredInputWaits: an INP and an INA no one has answered, a step that waits, the two suspended steps in states that
meet Inv, and a valid and an invalid answer. -/
theorem witness_unanswered :
    (answers [] [] (machine 8 .four 0 [])).input.takeInteger = none ∧
    (answers [] [[65, 66]] (machine 8 .four 0 [])).input.takeAscii 8 = none ∧
    (∃ t, (answers [] [] (machine 8 .four 0 [(0, 0xD0)])).Inv ∧
      step (answers [] [] (machine 8 .four 0 [(0, 0xD0)])) = .next t ∧ t.request = some .integer) ∧
    (asking .integer (answers [] [] (machine 8 .four 0 [(0, 0xD5)]))).Inv ∧
    (asking .asciiString (answers [7] [[65, 66]] (machine 8 .four 0 [(0, 0xE0)]))).Inv ∧
    validAscii 8 [65] = true ∧ validAscii 8 [65, 66] = false :=
  ⟨by decide, by decide, ⟨_, by decide, rfl, by decide⟩, by decide, by decide, by decide, by decide⟩

/-- StepRunsDecodedInstruction: each clause. -/
theorem witness_step_decodes :
    State.reset.status ≠ .halted ∧ decode State.reset.cfg (Memory.read State.reset.mem State.reset.pc) = .ok (.hlt 0) ∧
      State.reset.halt.status = .halted := by decide

/-- A step from a state that meets Inv (StepKeepsInvariant, StepReturnsFalseOnlyOnHltAndInvalid, AddressesStayInAddressField,
OutputOnlyAppendedByOutAndOua, StepKeepsConfiguration): OUT 5, a false step, and a jump to the last address. -/
theorem witness_steps :
    (∃ t, (machine 8 .four 0 [(0, 0x85)]).Inv ∧ (machine 8 .four 0 [(0, 0x85)]).status ≠ .halted ∧
      step (machine 8 .four 0 [(0, 0x85)]) = .next t ∧ t.out ≠ [] ∧ t.stepResult = some true) ∧
    (∃ t, (machine 8 .five 0 [(0, 0xFF)]).Inv ∧ (machine 8 .five 0 [(0, 0xFF)]).status ≠ .halted ∧
      step (machine 8 .five 0 [(0, 0xFF)]) = .next t ∧ t.stepResult = some false) ∧
    (∃ t, (machine 8 .four 0 [(0, 0x9F)]).Inv ∧ step (machine 8 .four 0 [(0, 0x9F)]) = .next t ∧ t.pc = 15) :=
  ⟨⟨_, by decide, by decide, rfl, by decide, by decide⟩, ⟨_, by decide, by decide, rfl, by decide⟩,
    ⟨_, by decide, rfl, by decide⟩⟩

/-- ProgramCounterRule, and with it OnlyListedInstructionsWriteAcc, OnlyStaInpInaWriteMemory and
OperandAccessGrowsMemory: a completed instruction of each class. -/
theorem witness_completed :
    (∃ t, exec (.hlt 1) State.reset = .next t ∧ t.request = none) ∧
    (∃ t, exec (.invalid31 1) State.reset = .next t ∧ t.request = none) ∧
    (∃ t, exec (.jmp 1) State.reset = .next t ∧ t.request = none) ∧
    (∃ t, exec (.jeq 1) State.reset = .next t ∧ t.request = none) ∧
    (∃ t, exec (.jlt 1) State.reset = .next t ∧ t.request = none) ∧
    (∃ t, exec (.sta 1) State.reset = .next t ∧ t.request = none) ∧
    (∃ t, exec (.inp 1) State.reset = .next t ∧ t.request = none) ∧
    (∃ t, exec (.ina 1) State.reset = .next t ∧ t.request = none) ∧ State.reset.status ≠ .halted :=
  ⟨⟨_, rfl, rfl⟩, ⟨_, rfl, rfl⟩, ⟨_, rfl, rfl⟩, ⟨_, rfl, rfl⟩, ⟨_, rfl, rfl⟩, ⟨_, rfl, rfl⟩, ⟨_, rfl, rfl⟩,
    ⟨_, rfl, rfl⟩, by decide⟩

/-- STA 1 at 0 (StoreIsSeenByNextFetch). -/
theorem witness_self_modification :
    ∃ t, (machine 8 .four (-112) [(0, 0x21)]).Inv ∧ (machine 8 .four (-112) [(0, 0x21)]).status ≠ .halted ∧
      decode (machine 8 .four (-112) [(0, 0x21)]).cfg (Memory.read (machine 8 .four (-112) [(0, 0x21)]).mem 0) =
        .ok (.sta (0 + 1)) ∧
      step (machine 8 .four (-112) [(0, 0x21)]) = .next t ∧ t.fetch.1 = 0x90 :=
  ⟨_, by decide, by decide, by decide, rfl, by decide⟩

theorem witness_frequency : (0 : Rat) < 2 := by norm_num

/-- A state in each status, that meets Inv (HostOperationsFollowStatusMachine, with witness_frequency; a
suspended step for the answers is in witness_unanswered). -/
theorem witness_host_operations :
    State.reset.Inv ∧ State.reset.status = .idle ∧ (State.reset.run 2).Inv ∧
      (State.reset.run 2).status = .running ∧ (State.reset.run 2).request = none ∧ State.reset.halt.Inv ∧
      State.reset.halt.status = .halted := by
  refine ⟨?_, ?_, ?_, ?_, ?_, ?_, ?_⟩ <;> decide

/-- StopDuringInputTakesEffectAfterStep: a running engine whose INP or INA waits and the provider has the answer, and one
that meets Inv, with the answer the host then gives. -/
theorem witness_stop_during_input :
    (asking .integer (answers [7] [] (machine 8 .four 0 []))).input.takeInteger = some (7, .interactive [] []) ∧
    (asking .asciiString (answers [] [[65]] (machine 8 .four 0 []))).input.takeAscii 8 =
      some ([65], .interactive [] []) ∧
    (asking .integer (answers [] [] (machine 8 .four 0 [(0, 0xD0)]))).Inv ∧
    seen (fun t => (t.status, t.acc)) ((asking .integer (answers [] [] (machine 8 .four 0
      [(0, 0xD0)]))).stop.answerInteger 7) = some (.idle, 7) ∧
    (asking .asciiString (answers [] [] (machine 8 .four 0 [(0, 0xE0)]))).Inv ∧ validAscii 8 [65] = true ∧
    seen (fun t => (t.status, t.acc)) ((asking .asciiString (answers [] [] (machine 8 .four 0
      [(0, 0xE0)]))).stop.answerAscii [65]) = some (.idle, 65) := by
  refine ⟨?_, ?_, ?_, ?_, ?_, ?_, ?_⟩ <;> decide

/-- RunEndsAtHltOrInvalidWord: a running engine that meets Inv and halts at once, and one that runs NOP and is still
Running, with no request, to be stopped and run again at a positive frequency (witness_frequency). -/
theorem witness_run :
    (∃ t, (State.reset.run 2).Inv ∧ (State.reset.run 2).status = .running ∧ (State.reset.run 2).runLoop 1 = .next t ∧
      t.status = .halted) ∧
    (∃ t, ((machine 8 .four 0 [(0, 0xF0)]).run 2).Inv ∧ ((machine 8 .four 0 [(0, 0xF0)]).run 2).status = .running ∧
      ((machine 8 .four 0 [(0, 0xF0)]).run 2).runLoop 1 = .next t ∧ t.status = .running ∧ t.request = none) :=
  ⟨⟨_, by decide, by decide, rfl, by decide⟩, ⟨_, by decide, by decide, rfl, by decide, by decide⟩⟩

/-- A state to save and one to load it into (SaveThenLoadRestoresState). -/
theorem witness_save_load :
    (machine 8 .five (-128) [(5, 0x80)]).wordsFit ∧ State.reset.halt.status ≠ .running ∧
      (State.reset.halt.load (some (machine 8 .five (-128) [(5, 0x80)]).save)).mem = [(5, 0x80)] := by decide

end Sys2Proof.Tests
end

section
/-! The two's-complement unit (00_scope.md R14 to R16): the conversions and the reduction into range, each law
carried to the library through the bit vector that holds the pattern. -/

namespace Sys2Proof.Machine

/-! ### toSigned and toUnsigned -/

/-- R14's formula over the integers. -/
theorem toSigned_eq_ite (W u : Nat) :
    toSigned W u = if (u : Int) > 2 ^ (W - 1) - 1 then (u : Int) - 2 ^ W else u := by
  have hp : 0 < 2 ^ (W - 1) := Nat.two_pow_pos _
  have hiff : u > 2 ^ (W - 1) - 1 ↔ (u : Int) > 2 ^ (W - 1) - 1 := by zify [hp]
  simp [toSigned, hiff]

theorem canonical_toSigned {W : Nat} (hW : 1 ≤ W) {u : Nat} (h : u < 2 ^ W) : canonical W (toSigned W u) := by
  rw [toSigned_eq_toInt hW h]
  exact canonical_toInt hW _

/-- R15's formula over the integers: on the canonical range no truncation to a natural number happens. -/
theorem toUnsigned_eq_ite {W : Nat} (hW : 1 ≤ W) {x : Int} (h : canonical W x) :
    (toUnsigned W x : Int) = if x < 0 then x + 2 ^ W else x := by
  have h2 := two_pow_pred hW
  obtain ⟨hlo, -⟩ := h
  have hsum : 0 ≤ x + (2 ^ W : Nat) := by omega
  unfold toUnsigned
  split
  · rw [Int.toNat_of_nonneg hsum]
    push_cast
    rfl
  · exact Int.toNat_of_nonneg (by omega)

theorem toUnsigned_lt {W : Nat} (hW : 1 ≤ W) {x : Int} (h : canonical W x) : toUnsigned W x < 2 ^ W := by
  rw [toUnsigned_eq_toNat hW h]
  exact BitVec.isLt _

theorem toUnsigned_toSigned {W : Nat} (hW : 1 ≤ W) {u : Nat} (h : u < 2 ^ W) : toUnsigned W (toSigned W u) = u := by
  rw [toUnsigned_eq_toNat hW (canonical_toSigned hW h), toSigned_eq_toInt hW h, BitVec.ofInt_toInt,
    BitVec.toNat_ofNat, Nat.mod_eq_of_lt h]

theorem toSigned_toUnsigned {W : Nat} (hW : 1 ≤ W) {x : Int} (h : canonical W x) :
    toSigned W (toUnsigned W x) = x := by
  rw [toSigned_eq_toInt hW (toUnsigned_lt hW h), toUnsigned_eq_toNat hW h, BitVec.ofNat_toNat, BitVec.setWidth_eq,
    toInt_ofInt_of_canonical hW h]

/-! ### reduceToRange -/

theorem canonical_reduceToRange {W : Nat} (hW : 1 ≤ W) (v : Int) : canonical W (reduceToRange W v) := by
  rw [reduceToRange_eq_toInt hW]
  exact canonical_toInt hW _

theorem reduceToRange_of_canonical {W : Nat} (hW : 1 ≤ W) {x : Int} (h : canonical W x) : reduceToRange W x = x := by
  rw [reduceToRange_eq_toInt hW, toInt_ofInt_of_canonical hW h]

theorem dvd_reduceToRange_sub (W : Nat) (v : Int) : (2 : Int) ^ W ∣ reduceToRange W v - v := by
  have hdvd := Int.dvd_emod_sub_self (x := v + (2 ^ (W - 1) : Nat)) (m := 2 ^ W)
  have heq : reduceToRange W v - v = (v + (2 ^ (W - 1) : Nat)) % (2 ^ W : Nat) - (v + (2 ^ (W - 1) : Nat)) := by
    unfold reduceToRange
    ring
  rw [heq]
  exact_mod_cast hdvd

/-- Congruent integers have one reduction. -/
theorem reduceToRange_congr {W : Nat} {x v : Int} (h : (2 : Int) ^ W ∣ x - v) :
    reduceToRange W x = reduceToRange W v := by
  have hmod : x ≡ v [ZMOD (2 ^ W : Nat)] := (Int.modEq_iff_dvd.mpr (by exact_mod_cast h)).symm
  unfold reduceToRange
  rw [hmod.add_right]

/-! ### The obligations -/

/-- Settles O10: each conversion's formula, the range it lands in, and that the other undoes it. -/
theorem twosComplementConversionsAreInverse : Obligations.TwosComplementConversionsAreInverse := by
  intro W h8 _
  have hW : 1 ≤ W := by omega
  constructor
  · intro u hu
    exact ⟨toSigned_eq_ite W u, canonical_toSigned hW hu, toUnsigned_toSigned hW hu⟩
  · intro x hx
    exact ⟨toUnsigned_eq_ite hW hx, toUnsigned_lt hW hx, toSigned_toUnsigned hW hx⟩

/-- Settles O11: a canonical integer is its own reduction, and congruent integers share theirs, so the reduction is the
one canonical integer of its class. -/
theorem reduceToRangeIsCanonicalRepresentative : Obligations.ReduceToRangeIsCanonicalRepresentative := by
  intro W v h8 _
  have hW : 1 ≤ W := by omega
  have hcan := canonical_reduceToRange hW v
  refine ⟨hcan, dvd_reduceToRange_sub W v, ?unique, reduceToRange_of_canonical hW hcan⟩
  case unique =>
    intro x hx hcongr
    calc x = reduceToRange W x := (reduceToRange_of_canonical hW hx).symm
      _ = reduceToRange W v := reduceToRange_congr hcongr

end Sys2Proof.Machine
end

section
/-! The decoder's two fields read bit by bit, and their bounds (30_encoding.md R70). -/

namespace Sys2Proof

theorem testBit_addressField (cfg : Config) (w i : Nat) :
    (addressField cfg w).testBit i = (decide (i < cfg.addressWidth) && w.testBit i) := by
  rw [addressField_eq_mod, Nat.testBit_mod_two_pow]

theorem testBit_opcodeField (cfg : Config) (w i : Nat) :
    (opcodeField cfg w).testBit i = w.testBit (cfg.addressWidth + i) :=
  Nat.testBit_shiftRight w

theorem addressField_lt (cfg : Config) (w : Nat) : addressField cfg w < 2 ^ cfg.addressWidth := by
  rw [addressField_eq_mod]
  exact Nat.mod_lt w (Nat.two_pow_pos _)

/-- Only a W-bit word has an O-bit opcode: the field is not masked, so the bound comes from the word's. -/
theorem opcodeField_lt {cfg : Config} (h : cfg.legal) {w : Nat} (hw : w < 2 ^ cfg.wordWidth) :
    opcodeField cfg w < 2 ^ cfg.opcodeWidth.bits := by
  rw [← h.bits_add, Nat.pow_add] at hw
  rw [opcodeField_eq_div]
  exact Nat.div_lt_of_lt_mul (by rwa [Nat.mul_comm])

/-- Settles O1: AW is W - O by definition, so R70's bits and bounds are the fields' own. -/
theorem decodeSplitsWordIntoFields : Obligations.DecodeSplitsWordIntoFields := by
  intro cfg w hlegal hw
  exact ⟨testBit_addressField cfg w, testBit_opcodeField cfg w, opcodeField_lt hlegal hw, addressField_lt cfg w⟩

end Sys2Proof
end

section
/-! How an instruction completes, said once: the PC it leaves and whether it halts the engine (40_step_engine.md
R106). -/

namespace Sys2Proof

/-- The instructions after which step() returns false: HLT and the two words without an entry (40_step_engine.md
R102, R106). -/
def Instr.halts : Instr → Bool
  | .hlt _ | .invalid30 _ | .invalid31 _ => true
  | _ => false

/-- The PC a completed instruction leaves (R106). -/
def Instr.pcAfter (s : Machine.State) : Instr → Nat
  | .hlt _ | .invalid30 _ | .invalid31 _ => s.pc
  | .jmp a => a
  | .jeq a => if s.acc = 0 then a else s.pc + 1
  | .jlt a => if s.acc < 0 then a else s.pc + 1
  | _ => s.pc + 1

end Sys2Proof

namespace Sys2Proof.Machine

theorem State.stepResult_of_complete {t : State} (h : t.request = none) :
    t.stepResult = some (decide (t.status ≠ .halted)) := by
  simp [State.stepResult, h]

/-- A stop() held back makes a running engine Idle, so an answer neither halts the engine nor leaves Halted (R125). -/
theorem State.answered_status_eq_halted_iff (p : Provider) (s : State) :
    (s.answered p).status = .halted ↔ s.status = .halted := by
  rw [State.answered_status]
  split <;> simp_all

/-- What every completed instruction does to PC and to the engine's status. -/
theorem exec_completes {s t : State} {i : Instr} (h : exec i s = .next t) (hreq : t.request = none) :
    t.pc = i.pcAfter s ∧ (t.status = .halted ↔ i.halts = true ∨ s.status = .halted) := by
  cases i with
  | jeq a | jlt a =>
    cases h
    split <;> simp_all [Instr.pcAfter, Instr.halts, State.accIsZero, State.accIsNegative]
  | inp a =>
    obtain ⟨-, hwait⟩ | ⟨n, p, -, hdone⟩ := execInp_cases a s
    · cases hwait.symm.trans h
      cases hreq
    · cases hdone.symm.trans h
      simp [Instr.pcAfter, Instr.halts, State.answered_status_eq_halted_iff, -State.answered_status]
  | ina a =>
    obtain ⟨-, hwait⟩ | ⟨n, p, -, hdone⟩ := execIna_cases a s
    · cases hwait.symm.trans h
      cases hreq
    · cases hdone.symm.trans h
      simp [Instr.pcAfter, Instr.halts, State.answered_status_eq_halted_iff, -State.answered_status]
  | _ =>
    cases h
    simp [Instr.pcAfter, Instr.halts]

/-- Settles O47: from a state that is not Halted, only the halting instructions leave Halted, which is what step()
returns. -/
theorem programCounterRule : Obligations.ProgramCounterRule := by
  intro s t i hs h hreq
  obtain ⟨hpc, hhalt⟩ := exec_completes h hreq
  simp only [hs, or_false] at hhalt
  have hres : t.stepResult = some (!i.halts) := by
    simp [State.stepResult_of_complete hreq, hhalt]
  cases i with
  | hlt _ | invalid30 _ | invalid31 _ => exact ⟨hpc, hhalt.mpr rfl, hres⟩
  | _ => exact ⟨hpc, hres⟩

end Sys2Proof.Machine
end

section
/-! The decoder on a word built from its two fields (30_encoding.md R70, R73, R78): the fields come back, so the word of
a catalogue index is the instruction of the entry there. -/

namespace Sys2Proof

theorem opcodeField_encodeFields {cfg : Config} (op : Nat) {a : Nat} (ha : a < 2 ^ cfg.addressWidth) :
    opcodeField cfg (encodeFields cfg op a) = op := by
  rw [opcodeField_eq_div, encodeFields, Nat.add_comm, Nat.add_mul_div_right _ _ (Nat.two_pow_pos _),
    Nat.div_eq_of_lt ha, Nat.zero_add]

theorem addressField_encodeFields {cfg : Config} (op : Nat) {a : Nat} (ha : a < 2 ^ cfg.addressWidth) :
    addressField cfg (encodeFields cfg op a) = a := by
  rw [addressField_eq_mod, encodeFields, Nat.mul_add_mod_of_lt ha]

theorem lookup_of_lt {cfg : Config} {op : Nat} (h : op < 2 ^ cfg.opcodeWidth.bits) :
    lookup cfg op = cfg.catalogue[op]? :=
  if_pos h

theorem decode_of_lookup {cfg : Config} {w : Nat} {m : Mnemonic} (h : lookup cfg (opcodeField cfg w) = some m) :
    decode cfg w = .ok (Instr.ofMnemonic (addressField cfg w) m) := by
  simp only [decode, h]

/-- Every mnemonic has its words: nothing in the decoder depends on which entry the catalogue holds. -/
theorem catalogueOpcode (m : Mnemonic) : CatalogueOpcode m := by
  intro cfg k a _ hk hm ha
  have hlookup : lookup cfg (opcodeField cfg (encodeFields cfg k a)) = some m := by
    rw [opcodeField_encodeFields k ha, lookup_of_lt hk, hm]
  have hdecode := decode_of_lookup hlookup
  rwa [addressField_encodeFields k ha] at hdecode

end Sys2Proof
end

section
/-! Load and store (41_load_store.md). -/

namespace Sys2Proof.Machine

/-- STA's full next state (R141, 20_memory.md R52, R53): one word written, PC moved on, memory grown to hold the
address. -/
theorem exec_sta (a : Nat) (s : State) :
    exec (.sta a) s = .next { s with
      mem := Memory.write a (toUnsigned s.cfg.wordWidth s.acc) s.mem, pc := s.pc + 1,
      memLen := max s.memLen (a + 1) } := by
  have hlen : ((s.formOperand .sta a).memWrite a s.accBits).memLen = max s.memLen (a + 1) := by
    simp [targetKind]
  rw [← hlen]
  rfl

/-- Settles O13: the one word STA writes is read back at its address and leaves every other read as it was. -/
theorem staStoresAccumulator : Obligations.StaStoresAccumulator :=
  ⟨catalogueOpcode .sta, fun s a =>
    ⟨_, exec_sta a s, Memory.read_write_same a _ s.mem, fun _ hb => Memory.read_write_other _ s.mem hb, rfl⟩⟩

end Sys2Proof.Machine
end

section
/-! Addition, subtraction and multiplication by a word or by the address field (42_arithmetic.md sections 2 and 3): the
whole next state of each instruction, read off the one way all of them complete. -/

namespace Sys2Proof.Machine

/-! ### Completing with a new ACC -/

/-- An addressed entry that only writes ACC: memory grows to hold the address (20_memory.md R52). -/
theorem State.finishAcc_formOperand_of_addressed {m : Mnemonic} (h : targetKind m = .addressed) (s : State) (a : Nat)
    (v : Int) :
    (s.formOperand m a).finishAcc v = { s with acc := v, pc := s.pc + 1, memLen := max s.memLen (a + 1) } := by
  simp only [State.formOperand, h, State.touch_eq]
  rfl

/-- A self-referential entry that only writes ACC reaches no memory, so not even the length changes (30_encoding.md
R75). -/
theorem State.finishAcc_formOperand_of_selfReferential {m : Mnemonic} (h : targetKind m = .selfReferential) (s : State)
    (imm : Nat) (v : Int) :
    (s.formOperand m imm).finishAcc v = { s with acc := v, pc := s.pc + 1 } := by
  simp only [State.formOperand, h]
  rfl

/-! ### ADD, SUB and MUL -/

theorem exec_add (a : Nat) (s : State) :
    exec (.add a) s = .next { s with
      acc := reduceToRange s.cfg.wordWidth (s.acc + toSigned s.cfg.wordWidth (Memory.read s.mem a))
      pc := s.pc + 1, memLen := max s.memLen (a + 1) } :=
  congrArg Host.Outcome.next (State.finishAcc_formOperand_of_addressed rfl s a _)

theorem exec_sub (a : Nat) (s : State) :
    exec (.sub a) s = .next { s with
      acc := reduceToRange s.cfg.wordWidth (s.acc - toSigned s.cfg.wordWidth (Memory.read s.mem a))
      pc := s.pc + 1, memLen := max s.memLen (a + 1) } :=
  congrArg Host.Outcome.next (State.finishAcc_formOperand_of_addressed rfl s a _)

theorem exec_mul (a : Nat) (s : State) :
    exec (.mul a) s = .next { s with
      acc := reduceToRange s.cfg.wordWidth (s.acc * toSigned s.cfg.wordWidth (Memory.read s.mem a))
      pc := s.pc + 1, memLen := max s.memLen (a + 1) } :=
  congrArg Host.Outcome.next (State.finishAcc_formOperand_of_addressed rfl s a _)

/-- Settles O14: the three results differ, and the one length all three leave is that of the access to the address. -/
theorem addSubMulReduceExactResult : Obligations.AddSubMulReduceExactResult :=
  ⟨catalogueOpcode .add, catalogueOpcode .sub, catalogueOpcode .mul, fun s a =>
    ⟨max s.memLen (a + 1), exec_add a s, exec_sub a s, exec_mul a s⟩⟩

/-! ### ADDS, SUBS and MULS -/

theorem exec_adds (imm : Nat) (s : State) :
    exec (.adds imm) s = .next { s with
      acc := reduceToRange s.cfg.wordWidth (s.acc + imm), pc := s.pc + 1 } :=
  congrArg Host.Outcome.next (State.finishAcc_formOperand_of_selfReferential rfl s imm _)

theorem exec_subs (imm : Nat) (s : State) :
    exec (.subs imm) s = .next { s with
      acc := reduceToRange s.cfg.wordWidth (s.acc - imm), pc := s.pc + 1 } :=
  congrArg Host.Outcome.next (State.finishAcc_formOperand_of_selfReferential rfl s imm _)

theorem exec_muls (imm : Nat) (s : State) :
    exec (.muls imm) s = .next { s with
      acc := reduceToRange s.cfg.wordWidth (s.acc * imm), pc := s.pc + 1 } :=
  congrArg Host.Outcome.next (State.finishAcc_formOperand_of_selfReferential rfl s imm _)

/-- Settles O18: a self-referential entry forms no operand, so the address field enters as the number it is. -/
theorem immediateAddSubMul : Obligations.ImmediateAddSubMul :=
  ⟨catalogueOpcode .adds, catalogueOpcode .subs, catalogueOpcode .muls, fun s imm =>
    ⟨exec_adds imm s, exec_subs imm s, exec_muls imm s⟩⟩

end Sys2Proof.Machine
end

section
/-! DIVS and MODS (42_arithmetic.md R155, R163, R164): the quotient and the remainder by a divisor that is zero or not,
and both instructions' next states. -/

namespace Sys2Proof.Machine

/-! ### The values written -/

@[simp] theorem divImmValue_zero (r : DivRounding) (a : Int) : divImmValue r a 0 = 0 :=
  if_pos rfl

@[simp] theorem modValue_zero (r : DivRounding) (a : Int) : modValue r a 0 = 0 :=
  if_pos rfl

theorem divImmValue_of_ne {d : Int} (hd : d ≠ 0) (r : DivRounding) (a : Int) :
    divImmValue r a d = quotient r a d :=
  if_neg hd

theorem modValue_of_ne {d : Int} (hd : d ≠ 0) (r : DivRounding) (a : Int) :
    modValue r a d = remainder r a d :=
  if_neg hd

/-- What the floored quotient leaves over is the library's floored remainder. -/
theorem remainder_floor (a d : Int) : remainder .floor a d = a.fmod d :=
  (Int.fmod_def a d).symm

/-- By a divisor that is not negative, as every address field is, flooring and Euclid agree. -/
theorem remainder_floor_of_nonneg (a : Int) {d : Int} (hd : 0 ≤ d) : remainder .floor a d = a % d := by
  rw [remainder_floor, Int.fmod_eq_emod_of_nonneg a hd]

/-! ### The instructions -/

theorem exec_divs (imm : Nat) (s : State) :
    exec (.divs imm) s = .next { s with
      acc := divImmValue s.cfg.divRounding s.acc imm, pc := s.pc + 1 } :=
  congrArg Host.Outcome.next (State.finishAcc_formOperand_of_selfReferential rfl s imm _)

theorem exec_mods (imm : Nat) (s : State) :
    exec (.mods imm) s = .next { s with
      acc := modValue s.cfg.divRounding s.acc imm, pc := s.pc + 1 } :=
  congrArg Host.Outcome.next (State.finishAcc_formOperand_of_selfReferential rfl s imm _)

/-- Settles O19: the values for a zero immediate and, under each rounding, for any other; the floored remainder is then
the Euclidean one, which gives its bounds. -/
theorem immediateDivMod : Obligations.ImmediateDivMod := by
  refine ⟨catalogueOpcode .divs, catalogueOpcode .mods, fun s imm =>
    ⟨_, _, exec_divs imm s, exec_mods imm s, ?zero, ?trunc, ?floor⟩⟩
  case zero =>
    rintro rfl
    exact ⟨divImmValue_zero _ _, modValue_zero _ _⟩
  case trunc =>
    intro himm hround
    have hne : (imm : Int) ≠ 0 := Int.natCast_ne_zero.mpr himm
    rw [divImmValue_of_ne hne, modValue_of_ne hne, hround]
    exact ⟨rfl, rfl⟩
  case floor =>
    intro himm hround
    have hne : (imm : Int) ≠ 0 := Int.natCast_ne_zero.mpr himm
    have hpos : (0 : Int) < imm := Int.natCast_pos.mpr (Nat.pos_of_ne_zero himm)
    rw [divImmValue_of_ne hne, modValue_of_ne hne, hround, remainder_floor_of_nonneg _ hpos.le]
    exact ⟨rfl, rfl, Int.emod_nonneg _ hne, Int.emod_lt_of_pos _ hpos⟩

end Sys2Proof.Machine
end

section
/-! Control (43_control.md): HLT and NOP, which form no operand, and the conditional jumps on ACC. -/

namespace Sys2Proof.Machine

/-! ### HLT and NOP -/

theorem exec_hlt (a : Nat) (s : State) : exec (.hlt a) s = .next { s with status := .halted } :=
  rfl

/-- Settles O26: the status is all HLT writes, and a completed step that leaves Halted returns false. -/
theorem hltHaltsInPlace : Obligations.HltHaltsInPlace :=
  ⟨catalogueOpcode .hlt, fun s a => ⟨_, exec_hlt a s, rfl, fun hreq => State.stepResult_of_complete hreq⟩⟩

theorem exec_nop (a : Nat) (s : State) : exec (.nop a) s = .next { s with pc := s.pc + 1 } :=
  rfl

/-- Settles O30. -/
theorem nopAdvancesPc : Obligations.NopAdvancesPc :=
  ⟨catalogueOpcode .nop, fun s a => exec_nop a s⟩

/-! ### JEQ and JLT -/

@[simp] theorem State.accIsZero_iff (s : State) : s.accIsZero = true ↔ s.acc = 0 :=
  decide_eq_true_iff

@[simp] theorem State.accIsNegative_iff (s : State) : s.accIsNegative = true ↔ s.acc < 0 :=
  decide_eq_true_iff

/-- A conditional jump reads the word at its address whether or not it is taken (30_encoding.md R81), so the test shows
in PC alone. -/
theorem State.branch_formOperand_of_addressed {m : Mnemonic} (h : targetKind m = .addressed) (s : State) (a : Nat)
    (taken : Bool) :
    (if taken then (s.formOperand m a).jump a else (s.formOperand m a).advance) =
      { s with pc := if taken then a else s.pc + 1, memLen := max s.memLen (a + 1) } := by
  simp only [State.formOperand, h, State.touch_eq]
  cases taken <;> rfl

theorem exec_jeq (a : Nat) (s : State) :
    exec (.jeq a) s = .next { s with
      pc := if s.acc = 0 then a else s.pc + 1, memLen := max s.memLen (a + 1) } := by
  simp only [← State.accIsZero_iff]
  exact congrArg Host.Outcome.next (State.branch_formOperand_of_addressed rfl s a s.accIsZero)

theorem exec_jlt (a : Nat) (s : State) :
    exec (.jlt a) s = .next { s with
      pc := if s.acc < 0 then a else s.pc + 1, memLen := max s.memLen (a + 1) } := by
  simp only [← State.accIsNegative_iff]
  exact congrArg Host.Outcome.next (State.branch_formOperand_of_addressed rfl s a s.accIsNegative)

/-- Settles O28: the one length both sides leave is that of the access to the address. -/
theorem jeqJumpsOnZero : Obligations.JeqJumpsOnZero := by
  refine ⟨catalogueOpcode .jeq, fun s a => ⟨max s.memLen (a + 1), ?taken, ?skipped⟩⟩
  case taken =>
    intro hzero
    rw [exec_jeq, if_pos hzero]
  case skipped =>
    intro hne
    rw [exec_jeq, if_neg hne]

/-- The top bit of a canonical integer's pattern is its sign. -/
theorem testBit_toUnsigned_sign {W : Nat} (hW : 1 ≤ W) {x : Int} (h : canonical W x) :
    (toUnsigned W x).testBit (W - 1) = decide (x < 0) :=
  calc (toUnsigned W x).testBit (W - 1)
    _ = (BitVec.ofInt W x).getLsbD (W - 1) := by rw [toUnsigned_eq_toNat hW h, BitVec.testBit_toNat]
    _ = (BitVec.ofInt W x).msb := (BitVec.msb_eq_getLsbD_last _).symm
    _ = decide ((BitVec.ofInt W x).toInt < 0) := BitVec.msb_eq_toInt
    _ = decide (x < 0) := by rw [toInt_ofInt_of_canonical hW h]

theorem State.Inv.acc_neg_iff_testBit_accBits {s : State} (h : s.Inv) :
    s.acc < 0 ↔ s.accBits.testBit (s.cfg.wordWidth - 1) = true := by
  obtain ⟨⟨hW, -⟩, hacc, -⟩ := h
  rw [State.accBits, State.width, testBit_toUnsigned_sign (by omega) hacc, decide_eq_true_iff]

/-- Settles O29: each side of the test is read off JLT's next state, and the test is the sign bit of the pattern of a
canonical ACC. -/
theorem jltJumpsOnNegative : Obligations.JltJumpsOnNegative := by
  refine ⟨catalogueOpcode .jlt, fun s a =>
    ⟨max s.memLen (a + 1), ?taken, ?skipped, State.Inv.acc_neg_iff_testBit_accBits⟩⟩
  case taken =>
    intro hneg
    rw [exec_jlt, if_pos hneg]
  case skipped =>
    intro hnonneg
    rw [exec_jlt, if_neg hnonneg.not_gt]

end Sys2Proof.Machine
end

section
/-! Input (44_io.md section 2): the whole next state of an answered input instruction, said once for INP and INA, and
what INP leaves. -/

namespace Sys2Proof.Machine

/-! ### An answered request -/

/-- The destination R202 and R203 share, read at every index: word 0 is never written, address 0 being ACC. -/
theorem Memory.read_storeInput (a w : Nat) (m : Memory) (b : Nat) :
    Memory.read (if a = 0 then m else Memory.write a w m) b = if b = a ∧ a ≠ 0 then w else Memory.read m b := by
  split
  case isTrue hzero => simp [hzero]
  case isFalse hne => simp [Memory.read_write, hne]

/-- How an input instruction completes: both access their address, so memory grows even where ACC is the destination
(30_encoding.md R81). -/
theorem State.storeInput_answered_of_addressed {m : Mnemonic} (h : targetKind m = .addressed) (s : State) (a : Nat)
    (p : Provider) (v : Int) (w : Nat) :
    (((s.formOperand m a).answered p).storeInput a v w).advance = { s with
      acc := if a = 0 then v else s.acc
      mem := if a = 0 then s.mem else Memory.write a w s.mem
      memLen := max s.memLen (a + 1)
      status := if s.stopPending && decide (s.status = .running) then .idle else s.status
      pc := s.pc + 1, input := p, request := none, stopPending := false } := by
  simp only [State.formOperand, h, State.touch_eq]
  by_cases ha : a = 0
  · simp only [State.storeInput, if_pos ha]
    rfl
  · simp only [State.storeInput, if_neg ha, State.memWrite, State.touch_eq, State.answered_memLen, max_self,
      max_assoc]
    rfl

/-! ### INP -/

theorem exec_inp_of_answered {s : State} {n : Int} {p : Provider} (h : s.input.takeInteger = some (n, p)) (a : Nat) :
    exec (.inp a) s = .next { s with
      acc := if a = 0 then reduceToRange s.cfg.wordWidth n else s.acc
      mem := if a = 0 then s.mem
        else Memory.write a (toUnsigned s.cfg.wordWidth (reduceToRange s.cfg.wordWidth n)) s.mem
      memLen := max s.memLen (a + 1)
      status := if s.stopPending && decide (s.status = .running) then .idle else s.status
      pc := s.pc + 1, input := p, request := none, stopPending := false } := by
  obtain ⟨hnone, -⟩ | ⟨n', p', hsome, hdone⟩ := execInp_cases a s
  · cases hnone.symm.trans h
  · cases hsome.symm.trans h
    exact hdone.trans (congrArg Host.Outcome.next (State.storeInput_answered_of_addressed rfl s a p _ _))

/-- Settles O36: one destination takes the reduced integer, every other word reads as before, and with no stop() held
back the answer leaves the status alone. -/
theorem inpStoresReducedInteger : Obligations.InpStoresReducedInteger := by
  refine ⟨catalogueOpcode .inp, fun s a v p hanswer =>
    ⟨_, exec_inp_of_answered hanswer a, rfl, Memory.read_storeInput a _ s.mem, ?status, rfl⟩⟩
  case status =>
    intro hstop
    simp [hstop]

end Sys2Proof.Machine
end

section
/-! ROL (45_logic_shift_compare.md R243): in the catalogue, and in execution a NOP. -/

namespace Sys2Proof.Machine

/-- ROL forms no operand, so its address field appears nowhere in the next state, not even in the length of memory
(30_encoding.md R81). -/
theorem exec_rol (a : Nat) (s : State) : exec (.rol a) s = .next { s with pc := s.pc + 1 } :=
  rfl

/-- Settles O24. -/
theorem rolIsNoOperation : Obligations.RolIsNoOperation :=
  ⟨catalogueOpcode .rol, fun s a => exec_rol a s⟩

end Sys2Proof.Machine
end

section
/-! The encoder and the decoder as inverses (30_encoding.md R70 to R79): the two fields make up the word, the index of a
mnemonic is the one place it stands at in the catalogue, and the words without an entry are those of opcode 30 and
31. -/

namespace Sys2Proof

/-! ### Legal configurations -/

section

variable {cfg : Config} (h : cfg.legal)
include h

theorem Config.legal.eight_le_wordWidth : 8 ≤ cfg.wordWidth := by
  obtain ⟨h8, -⟩ := h
  exact h8

theorem Config.legal.one_le_wordWidth : 1 ≤ cfg.wordWidth :=
  le_trans (by decide) h.eight_le_wordWidth

theorem Config.legal.length_catalogue : cfg.catalogue.length = 30 := by
  obtain ⟨-, -, hlen, -⟩ := h
  exact hlen

theorem Config.legal.getElem?_eight : cfg.catalogue[8]? = some .out := by
  obtain ⟨-, -, -, hout, -⟩ := h
  exact hout

theorem Config.legal.nodup_catalogue : cfg.catalogue.Nodup := by
  obtain ⟨-, -, -, -, hnodup, -⟩ := h
  exact hnodup

end

/-! ### The two fields -/

theorem encodeFields_lt {cfg : Config} (h : cfg.legal) {op a : Nat} (hop : op < 2 ^ cfg.opcodeWidth.bits)
    (ha : a < 2 ^ cfg.addressWidth) : encodeFields cfg op a < 2 ^ cfg.wordWidth :=
  calc op * 2 ^ cfg.addressWidth + a
    _ < (op + 1) * 2 ^ cfg.addressWidth := by rw [Nat.add_mul]; omega
    _ ≤ 2 ^ cfg.opcodeWidth.bits * 2 ^ cfg.addressWidth := Nat.mul_le_mul_right _ hop
    _ = 2 ^ cfg.wordWidth := by rw [← Nat.pow_add, h.bits_add]

theorem encodeFields_fields (cfg : Config) (w : Nat) :
    encodeFields cfg (opcodeField cfg w) (addressField cfg w) = w := by
  rw [encodeFields, opcodeField_eq_div, addressField_eq_mod, Nat.div_add_mod']

/-- Settles O2: the quotient and the remainder by 2^AW, in both directions. -/
theorem fieldsRoundTrip : Obligations.FieldsRoundTrip := by
  intro cfg hlegal
  exact ⟨fun op a hop ha => ⟨encodeFields_lt hlegal hop ha, opcodeField_encodeFields op ha,
    addressField_encodeFields op ha⟩, fun w _ => encodeFields_fields cfg w⟩

/-! ### Instructions and mnemonics -/

theorem Instr.ofMnemonic_address {i : Instr} {m : Mnemonic} (h : i.mnemonic = some m) :
    Instr.ofMnemonic i.address m = i := by
  cases i <;> cases h <;> rfl

@[simp] theorem Instr.mnemonic_ofMnemonic (a : Nat) (m : Mnemonic) : (Instr.ofMnemonic a m).mnemonic = some m := by
  cases m <;> rfl

@[simp] theorem Instr.address_ofMnemonic (a : Nat) (m : Mnemonic) : (Instr.ofMnemonic a m).address = a := by
  cases m <;> rfl

theorem Instr.ofMnemonic_ne_of_mnemonic_eq_none {i : Instr} (h : i.mnemonic = none) (a : Nat) (m : Mnemonic) :
    Instr.ofMnemonic a m ≠ i := by
  rintro rfl
  simp at h

theorem opcodeOf_of_mnemonic {i : Instr} {m : Mnemonic} (h : i.mnemonic = some m) (cfg : Config) :
    opcodeOf cfg i = cfg.catalogue.findIdx? (fun e => decide (e = m)) := by
  cases i <;> cases h <;> rfl

/-- Where no mnemonic stands twice, looking an entry up and searching for it are inverse (R77). -/
theorem findIdx?_catalogue_eq_some_iff {cfg : Config} (h : cfg.catalogue.Nodup) (m : Mnemonic) (k : Nat) :
    cfg.catalogue.findIdx? (fun e => decide (e = m)) = some k ↔ cfg.catalogue[k]? = some m := by
  rw [List.findIdx?_eq_some_iff_getElem, List.getElem?_eq_some_iff]
  refine exists_congr fun hk => ?_
  simp only [decide_eq_true_eq, and_iff_left_iff_imp]
  rintro rfl j hj hjk
  exact hj.ne ((List.Nodup.getElem_inj_iff h).mp hjk)

/-! ### The lookup -/

theorem lookup_eq_none_iff (cfg : Config) (op : Nat) :
    lookup cfg op = none ↔ 2 ^ cfg.opcodeWidth.bits ≤ op ∨ cfg.catalogue[op]? = none := by
  unfold lookup
  split
  case isTrue hlt => simp [hlt]
  case isFalse hge => simp [Nat.not_lt.mp hge]

theorem getElem?_of_lookup {cfg : Config} {op : Nat} {m : Mnemonic} (h : lookup cfg op = some m) :
    cfg.catalogue[op]? = some m :=
  (Option.ite_none_right_eq_some.mp h).2

theorem Config.legal.lookup_eq_none_iff {cfg : Config} (h : cfg.legal) (op : Nat) :
    lookup cfg op = none ↔ 2 ^ cfg.opcodeWidth.bits ≤ op ∨ 30 ≤ op := by
  rw [Sys2Proof.lookup_eq_none_iff, List.getElem?_eq_none_iff, h.length_catalogue]

/-- Settles O5: the lookup fails by its guard or by the catalogue, which in a legal configuration ends at index 29. -/
theorem lookupFailsOutsideCatalogue : Obligations.LookupFailsOutsideCatalogue := fun cfg op =>
  ⟨lookup_eq_none_iff cfg op, fun _ hm => getElem?_of_lookup hm, fun hlegal => hlegal.lookup_eq_none_iff op⟩

/-! ### The words without an entry -/

theorem decode_of_lookup_eq_none {cfg : Config} {w : Nat} (h : lookup cfg (opcodeField cfg w) = none) :
    decode cfg w = decodeMissing cfg (opcodeField cfg w) (addressField cfg w) := by
  simp only [decode, h]

theorem decodeMissing_eq_invalid30_iff (cfg : Config) (op a b : Nat) :
    decodeMissing cfg op a = .ok (.invalid30 b) ↔ cfg.opcodeWidth = .five ∧ op = 30 ∧ b = a := by
  unfold decodeMissing
  split <;> simp_all [eq_comm]

theorem decodeMissing_eq_invalid31_iff (cfg : Config) (op a b : Nat) :
    decodeMissing cfg op a = .ok (.invalid31 b) ↔ cfg.opcodeWidth = .five ∧ op = 31 ∧ b = a := by
  unfold decodeMissing
  split <;> simp_all [eq_comm]

/-- An instruction that is no catalogue entry is decoded only where the lookup fails. -/
theorem decode_eq_ok_iff_of_no_mnemonic {cfg : Config} {i : Instr} (hi : i.mnemonic = none) (w : Nat) :
    decode cfg w = .ok i ↔ lookup cfg (opcodeField cfg w) = none ∧
      decodeMissing cfg (opcodeField cfg w) (addressField cfg w) = .ok i := by
  cases hlook : lookup cfg (opcodeField cfg w) with
  | some m => simp [decode_of_lookup hlook, Instr.ofMnemonic_ne_of_mnemonic_eq_none hi]
  | none => simp [decode_of_lookup_eq_none hlook]

theorem Config.legal.decode_eq_invalid30_iff {cfg : Config} (h : cfg.legal) (w a : Nat) :
    decode cfg w = .ok (.invalid30 a) ↔
      cfg.opcodeWidth = .five ∧ opcodeField cfg w = 30 ∧ a = addressField cfg w := by
  rw [decode_eq_ok_iff_of_no_mnemonic rfl, decodeMissing_eq_invalid30_iff, h.lookup_eq_none_iff]
  exact and_iff_right_of_imp fun ⟨_, hop, _⟩ => .inr hop.ge

theorem Config.legal.decode_eq_invalid31_iff {cfg : Config} (h : cfg.legal) (w a : Nat) :
    decode cfg w = .ok (.invalid31 a) ↔
      cfg.opcodeWidth = .five ∧ opcodeField cfg w = 31 ∧ a = addressField cfg w := by
  rw [decode_eq_ok_iff_of_no_mnemonic rfl, decodeMissing_eq_invalid31_iff, h.lookup_eq_none_iff]
  exact and_iff_right_of_imp fun ⟨_, hop, _⟩ => .inr (by omega)

/-- Settles O6: under O = 5 the fields are the quotient and the remainder by 2^(W - 5). -/
theorem invalidWordsAreOpcodes30And31 : Obligations.InvalidWordsAreOpcodes30And31 := by
  intro cfg w a hlegal _
  rw [hlegal.decode_eq_invalid30_iff, hlegal.decode_eq_invalid31_iff, opcodeField_eq_div, addressField_eq_mod]
  constructor <;>
    exact and_congr_right fun h5 => by rw [Config.addressWidth, h5, OpcodeWidth.bits]

/-! ### The round trips -/

theorem wellFormed_iff (cfg : Config) (i : Instr) :
    WellFormed cfg i = true ↔
      ∃ op, opcodeOf cfg i = some op ∧ op < 2 ^ cfg.opcodeWidth.bits ∧ i.address < 2 ^ cfg.addressWidth := by
  simp only [WellFormed, opcodeFits, addressFits]
  cases opcodeOf cfg i <;> simp

theorem encode_eq {cfg : Config} {i : Instr} {op : Nat} (h : opcodeOf cfg i = some op) :
    encode cfg i = some (encodeFields cfg op i.address) := by
  simp [encode, h]

theorem Instr.eq_invalid_of_mnemonic_eq_none {i : Instr} (h : i.mnemonic = none) :
    i = .invalid30 i.address ∨ i = .invalid31 i.address := by
  cases i with
  | invalid30 a => exact .inl rfl
  | invalid31 a => exact .inr rfl
  | _ => cases h

theorem OpcodeWidth.eq_five_of_lt {o : OpcodeWidth} (h : 30 < 2 ^ o.bits) : o = .five := by
  cases o with
  | four => simp [OpcodeWidth.bits] at h
  | five => rfl

/-- A word is decoded to the instruction whose index and address are its fields. -/
theorem Config.legal.decode_of_fields {cfg : Config} (h : cfg.legal) {i : Instr} {w : Nat}
    (hop : opcodeOf cfg i = some (opcodeField cfg w)) (hfit : opcodeField cfg w < 2 ^ cfg.opcodeWidth.bits)
    (ha : i.address = addressField cfg w) : decode cfg w = .ok i := by
  cases hm : i.mnemonic with
  | some m =>
    rw [opcodeOf_of_mnemonic hm, findIdx?_catalogue_eq_some_iff h.nodup_catalogue, ← lookup_of_lt hfit] at hop
    rw [decode_of_lookup hop, ← ha, Instr.ofMnemonic_address hm]
  | none =>
    obtain hi | hi := Instr.eq_invalid_of_mnemonic_eq_none hm
    · have h30 : 30 = opcodeField cfg w := Option.some.inj (by rwa [hi] at hop)
      rw [hi, h.decode_eq_invalid30_iff]
      exact ⟨OpcodeWidth.eq_five_of_lt (by omega), h30.symm, ha⟩
    · have h31 : 31 = opcodeField cfg w := Option.some.inj (by rwa [hi] at hop)
      rw [hi, h.decode_eq_invalid31_iff]
      exact ⟨OpcodeWidth.eq_five_of_lt (by omega), h31.symm, ha⟩

/-- Every pair of fields is that of an instruction. -/
theorem Config.legal.exists_instr_of_fields {cfg : Config} (h : cfg.legal) {op : Nat}
    (hop : op < 2 ^ cfg.opcodeWidth.bits) (a : Nat) :
    ∃ i : Instr, opcodeOf cfg i = some op ∧ i.address = a := by
  cases hm : cfg.catalogue[op]? with
  | some m =>
    refine ⟨Instr.ofMnemonic a m, ?_, Instr.address_ofMnemonic a m⟩
    rwa [opcodeOf_of_mnemonic (Instr.mnemonic_ofMnemonic a m), findIdx?_catalogue_eq_some_iff h.nodup_catalogue]
  | none =>
    rw [List.getElem?_eq_none_iff, h.length_catalogue] at hm
    have h5 := OpcodeWidth.eq_five_of_lt (hm.trans_lt hop)
    rw [h5, OpcodeWidth.bits] at hop
    obtain rfl | rfl : op = 30 ∨ op = 31 := by omega
    · exact ⟨.invalid30 a, rfl, rfl⟩
    · exact ⟨.invalid31 a, rfl, rfl⟩

/-- Settles O3: the encoder's fields are the index and the address, and the decoder reads the fields back. -/
theorem decodeOfEncodeIsIdentity : Obligations.DecodeOfEncodeIsIdentity := by
  intro cfg i hlegal hwf
  obtain ⟨op, hop, hfit, ha⟩ := (wellFormed_iff cfg i).mp hwf
  refine ⟨_, encode_eq hop, encodeFields_lt hlegal hfit ha, hlegal.decode_of_fields ?_ ?_ ?_⟩
  · rwa [opcodeField_encodeFields op ha]
  · rwa [opcodeField_encodeFields op ha]
  · rw [addressField_encodeFields op ha]

/-- Settles O4: some instruction has the word's fields, the decoder answers it, and its encoding puts them together
again. -/
theorem encodeOfDecodeIsIdentity : Obligations.EncodeOfDecodeIsIdentity := by
  intro cfg w hlegal hw
  have hfit := opcodeField_lt hlegal hw
  obtain ⟨i, hop, ha⟩ := hlegal.exists_instr_of_fields hfit (addressField cfg w)
  refine ⟨i, hlegal.decode_of_fields hop hfit ha, (wellFormed_iff cfg i).mpr ⟨_, hop, hfit, ?_⟩, ?_⟩
  · exact ha.trans_lt (addressField_lt cfg w)
  · rw [encode_eq hop, ha, encodeFields_fields]

/-! ### Words of the catalogue -/

/-- Settles O7: index 8 is below 2^4, so both opcode widths hold it. -/
theorem opcodeEightIsOut : Obligations.OpcodeEightIsOut := by
  intro cfg a hlegal ha
  have hfit : 8 < 2 ^ cfg.opcodeWidth.bits := by cases cfg.opcodeWidth <;> decide
  exact catalogueOpcode .out cfg 8 a hlegal hfit hlegal.getElem?_eight ha

theorem nodup_defaultCatalogue : defaultCatalogue.Nodup := by decide

theorem rol_mem_defaultCatalogue : .rol ∈ defaultCatalogue := by decide

theorem Config.legal_standard {W : Nat} (h8 : 8 ≤ W) (h64 : W ≤ 64) (O : OpcodeWidth) :
    (Config.standard W O).legal :=
  ⟨h8, h64, rfl, rfl, nodup_defaultCatalogue, rol_mem_defaultCatalogue⟩

theorem defaultOpcode {m : Mnemonic} {k : Nat} (h : defaultCatalogue[k]? = some m) : DefaultOpcode m k :=
  fun _ O a h8 h64 hk ha => catalogueOpcode m _ k a (Config.legal_standard h8 h64 O) hk h ha

/-- Settles O9: the place of each mnemonic in the default list is its index at every W and O. -/
theorem defaultCatalogueIndices : Obligations.DefaultCatalogueIndices := by
  refine ⟨⟨?_, ?_, ?_, ?_, ?_, ?_, ?_, ?_, ?_, ?_⟩, ⟨?_, ?_, ?_, ?_, ?_, ?_, ?_, ?_, ?_, ?_⟩,
    ⟨?_, ?_, ?_, ?_, ?_, ?_, ?_, ?_, ?_, ?_⟩⟩ <;> exact defaultOpcode rfl

/-- Settles O8. -/
theorem writtenWordsDecode : Obligations.WrittenWordsDecode := by
  unfold Obligations.WrittenWordsDecode
  decide

/-! ### What a decoded instruction holds -/

/-- The address of a decoded instruction is the word's address field, whatever the configuration. -/
theorem address_of_decode {cfg : Config} {w : Nat} {i : Instr} (h : decode cfg w = .ok i) :
    i.address = addressField cfg w := by
  cases hlook : lookup cfg (opcodeField cfg w) with
  | some m =>
    cases (decode_of_lookup hlook).symm.trans h
    exact Instr.address_ofMnemonic _ m
  | none =>
    rw [decode_of_lookup_eq_none hlook] at h
    unfold decodeMissing at h
    split at h <;> cases h <;> rfl

end Sys2Proof
end

section
/-! The bit vectors behind ACC and a word (10_state.md R23, 00_scope.md R14 to R19): in a state whose data fit its
width, the integers the instruction rules compute with are readings of two bit vectors. -/

namespace Sys2Proof.Machine

/-! ### States whose data fit the width -/

/-- The part of the invariant that speaks of values: it holds throughout a step, where the clauses on a waiting step
need not. -/
structure State.DataFits (s : State) : Prop where
  legal : s.cfg.legal
  acc : canonical s.cfg.wordWidth s.acc
  words : s.wordsFit

theorem State.Inv.dataFits {s : State} (h : s.Inv) : s.DataFits := by
  obtain ⟨hlegal, hacc, -, hwords, -⟩ := h
  exact ⟨hlegal, hacc, hwords⟩

namespace State.DataFits

variable {s : State} (h : s.DataFits)
include h

theorem width_pos : 1 ≤ s.cfg.wordWidth :=
  h.legal.one_le_wordWidth

theorem read_lt (a : Nat) : Memory.read s.mem a < 2 ^ s.cfg.wordWidth := by
  obtain hzero | hmem := Memory.read_mem s.mem a
  · rw [hzero]
    exact Nat.two_pow_pos _
  · exact (h.words _ hmem).1

theorem accVec_toInt : s.accVec.toInt = s.acc :=
  toInt_ofInt_of_canonical h.width_pos h.acc

theorem accVec_toNat : s.accVec.toNat = toUnsigned s.cfg.wordWidth s.acc :=
  (toUnsigned_eq_toNat h.width_pos h.acc).symm

theorem wordVec_toNat (a : Nat) : (s.wordVec a).toNat = Memory.read s.mem a := by
  rw [State.wordVec, BitVec.toNat_ofNat, Nat.mod_eq_of_lt (h.read_lt a)]

theorem wordVec_toInt (a : Nat) : (s.wordVec a).toInt = toSigned s.cfg.wordWidth (Memory.read s.mem a) :=
  (toSigned_eq_toInt h.width_pos (h.read_lt a)).symm

end State.DataFits

/-! ### The conversions as readings of a bit vector -/

theorem toSigned_toNat {W : Nat} (hW : 1 ≤ W) (x : BitVec W) : toSigned W x.toNat = x.toInt := by
  rw [toSigned_eq_toInt hW x.isLt, BitVec.ofNat_toNat, BitVec.setWidth_eq]

theorem ofInt_sub (W : Nat) (x y : Int) : BitVec.ofInt W (x - y) = BitVec.ofInt W x - BitVec.ofInt W y := by
  rw [sub_eq_add_neg, BitVec.ofInt_add, BitVec.ofInt_neg, BitVec.sub_eq_add_neg]

theorem toInt_not {W : Nat} (hW : 1 ≤ W) (x : BitVec W) : (~~~x).toInt = -x.toInt - 1 := by
  obtain ⟨hlo, hhi⟩ := canonical_toInt hW x
  have hcan : canonical W (-x.toInt - 1) := ⟨by omega, by omega⟩
  have hvec : BitVec.ofInt W (-x.toInt - 1) = ~~~x := by
    rw [ofInt_sub, BitVec.ofInt_neg, BitVec.ofInt_toInt, BitVec.neg_eq_not_add]
    exact BitVec.add_sub_cancel _ _
  rw [← hvec, toInt_ofInt_of_canonical hW hcan]

theorem toInt_ofNat_of_lt {W n : Nat} (hW : 1 ≤ W) (h : n < 2 ^ (W - 1)) : (BitVec.ofNat W n).toInt = n := by
  have hcan : canonical W n := ⟨by omega, by omega⟩
  rw [← BitVec.ofInt_natCast, toInt_ofInt_of_canonical hW hcan]

theorem toInt_eq_zero_iff {W : Nat} (x : BitVec W) : x.toInt = 0 ↔ x = 0 := by
  rw [← BitVec.toInt_inj]
  simp

/-! ### Completing with a value -/

theorem State.next_finishAcc_of_addressed {m : Mnemonic} (h : targetKind m = .addressed) {s : State} {a : Nat}
    {v x : Int} (hv : v = x) :
    (.next ((s.formOperand m a).finishAcc v) : Result State) =
      .next { s with acc := x, pc := s.pc + 1, memLen := max s.memLen (a + 1) } := by
  rw [State.finishAcc_formOperand_of_addressed h, hv]

theorem State.next_finishAcc_of_selfReferential {m : Mnemonic} (h : targetKind m = .selfReferential) {s : State}
    {imm : Nat} {v x : Int} (hv : v = x) :
    (.next ((s.formOperand m imm).finishAcc v) : Result State) = .next { s with acc := x, pc := s.pc + 1 } := by
  rw [State.finishAcc_formOperand_of_selfReferential h, hv]

end Sys2Proof.Machine
end

section
/-! LDA, ADB, the logic, shift, rotate and compare instructions (41_load_store.md, 42_arithmetic.md section 4,
45_logic_shift_compare.md): each next state as an operation of the two bit vectors. -/

namespace Sys2Proof.Machine

/-- A shift by W or more leaves no bit of a W-bit pattern, so R240's second case is the first one's value. -/
theorem shiftRight_eq {W u : Nat} (h : u < 2 ^ W) (k : Nat) : shiftRight W u k = u >>> k := by
  unfold shiftRight
  split
  case isTrue hk => exact (Nat.shiftRight_eq_zero u k (h.trans_le (Nat.pow_le_pow_right (by omega) hk))).symm
  case isFalse => rfl

/-- A shift by W or more moves every bit past the top, so R241's second case is the first one's value. -/
theorem shiftLeft_eq (W u k : Nat) : shiftLeft W u k = u <<< k % 2 ^ W := by
  unfold shiftLeft
  split
  case isTrue hk =>
    rw [Nat.shiftLeft_eq, Nat.mod_eq_zero_of_dvd (Dvd.dvd.mul_left (pow_dvd_pow 2 hk) u)]
  case isFalse => rfl

namespace State.DataFits

variable {s : State} (h : s.DataFits)
include h

theorem exec_lda (a : Nat) :
    exec (.lda a) s = .next { s with
      acc := (s.wordVec a).toInt, pc := s.pc + 1, memLen := max s.memLen (a + 1) } :=
  State.next_finishAcc_of_addressed rfl (h.wordVec_toInt a).symm

/-- A W-bit result is written back as the signed reading of its bit vector (45_logic_shift_compare.md section 1). -/
theorem next_finishBits_of_addressed {m : Mnemonic} (hm : targetKind m = .addressed) {a r : Nat}
    {x : BitVec s.cfg.wordWidth} (hx : x.toNat = r) :
    (.next ((s.formOperand m a).finishBits r) : Result State) =
      .next { s with acc := x.toInt, pc := s.pc + 1, memLen := max s.memLen (a + 1) } := by
  subst hx
  rw [← toSigned_toNat h.width_pos, State.finishBits, State.formOperand_width]
  exact State.next_finishAcc_of_addressed hm rfl

theorem next_finishBits_of_selfReferential {m : Mnemonic} (hm : targetKind m = .selfReferential) {imm r : Nat}
    {x : BitVec s.cfg.wordWidth} (hx : x.toNat = r) :
    (.next ((s.formOperand m imm).finishBits r) : Result State) =
      .next { s with acc := x.toInt, pc := s.pc + 1 } := by
  subst hx
  rw [← toSigned_toNat h.width_pos, State.finishBits, State.formOperand_width]
  exact State.next_finishAcc_of_selfReferential hm rfl

theorem exec_adb (a : Nat) :
    exec (.adb a) s = .next { s with
      acc := (s.accVec + s.wordVec a).toInt, pc := s.pc + 1, memLen := max s.memLen (a + 1) } :=
  h.next_finishBits_of_addressed rfl (by rw [BitVec.toNat_add, h.accVec_toNat, h.wordVec_toNat]; rfl)

theorem exec_and (a : Nat) :
    exec (.and a) s = .next { s with
      acc := (s.accVec &&& s.wordVec a).toInt, pc := s.pc + 1, memLen := max s.memLen (a + 1) } :=
  h.next_finishBits_of_addressed rfl (by rw [BitVec.toNat_and, h.accVec_toNat, h.wordVec_toNat]; rfl)

theorem exec_or (a : Nat) :
    exec (.or a) s = .next { s with
      acc := (s.accVec ||| s.wordVec a).toInt, pc := s.pc + 1, memLen := max s.memLen (a + 1) } :=
  h.next_finishBits_of_addressed rfl (by rw [BitVec.toNat_or, h.accVec_toNat, h.wordVec_toNat]; rfl)

theorem exec_xor (a : Nat) :
    exec (.xor a) s = .next { s with
      acc := (s.accVec ^^^ s.wordVec a).toInt, pc := s.pc + 1, memLen := max s.memLen (a + 1) } :=
  h.next_finishBits_of_addressed rfl (by rw [BitVec.toNat_xor, h.accVec_toNat, h.wordVec_toNat]; rfl)

theorem exec_shr (k : Nat) :
    exec (.shr k) s = .next { s with
      acc := (s.accVec >>> k).toInt, pc := s.pc + 1, memLen := max s.memLen (k + 1) } :=
  h.next_finishBits_of_addressed rfl (by
    rw [BitVec.toNat_ushiftRight, ← shiftRight_eq s.accVec.isLt, h.accVec_toNat]; rfl)

theorem exec_shl (k : Nat) :
    exec (.shl k) s = .next { s with
      acc := (s.accVec <<< k).toInt, pc := s.pc + 1, memLen := max s.memLen (k + 1) } :=
  h.next_finishBits_of_addressed rfl (by rw [BitVec.toNat_shiftLeft, ← shiftLeft_eq, h.accVec_toNat]; rfl)

theorem exec_not (a : Nat) :
    exec (.not a) s = .next { s with acc := (~~~s.accVec).toInt, pc := s.pc + 1 } :=
  h.next_finishBits_of_selfReferential rfl (by
    rw [BitVec.not_def, BitVec.xor_comm, BitVec.toNat_xor, BitVec.toNat_allOnes, h.accVec_toNat]; rfl)

theorem exec_ror (imm : Nat) :
    exec (.ror imm) s = .next { s with acc := (s.accVec.rotateRight imm).toInt, pc := s.pc + 1 } :=
  h.next_finishBits_of_selfReferential rfl (by rw [BitVec.toNat_rotateRight, h.accVec_toNat]; rfl)

theorem exec_cmp (a : Nat) :
    exec (.cmp a) s = .next { s with
      acc := if s.accVec = s.wordVec a then 1 else 0, pc := s.pc + 1, memLen := max s.memLen (a + 1) } := by
  refine State.next_finishAcc_of_addressed rfl ?_
  simp only [← BitVec.toNat_inj, h.accVec_toNat, h.wordVec_toNat, truth, decide_eq_true_eq]
  rfl

theorem accVec_eq_wordVec_iff (a : Nat) : s.accVec = s.wordVec a ↔ s.acc = (s.wordVec a).toInt := by
  rw [← BitVec.toInt_inj, h.accVec_toInt]

end State.DataFits

/-! ### The obligations -/

/-- Settles O12: LDA writes the signed reading of the word. -/
theorem ldaLoadsSignedWord : Obligations.LdaLoadsSignedWord :=
  ⟨catalogueOpcode .lda, fun _ a h => h.dataFits.exec_lda a⟩

/-- Settles O21: each result is one bit vector operation, and the complement is read signed as -ACC - 1. -/
theorem logicIsBitwiseOnPatterns : Obligations.LogicIsBitwiseOnPatterns := by
  refine ⟨catalogueOpcode .and, catalogueOpcode .or, catalogueOpcode .xor, catalogueOpcode .not, fun s a hinv => ?_⟩
  have h := hinv.dataFits
  have hnot : (~~~s.accVec).toInt = -s.acc - 1 := by rw [toInt_not h.width_pos, h.accVec_toInt]
  exact ⟨h.exec_and a, h.exec_or a, h.exec_xor a, h.exec_not a, hnot ▸ h.exec_not a⟩

/-- Settles O22: the shifts are the bit vector's, which give zero from the width on. -/
theorem shiftsAreLogicalByAddressField : Obligations.ShiftsAreLogicalByAddressField := by
  refine ⟨catalogueOpcode .shr, catalogueOpcode .shl, fun s k hinv => ?_⟩
  have h := hinv.dataFits
  refine ⟨h.exec_shr k, h.exec_shl k, fun hk => ?_⟩
  rw [BitVec.ushiftRight_eq_zero hk, BitVec.shiftLeft_eq_zero hk]
  exact ⟨BitVec.toInt_zero, BitVec.toInt_zero⟩

/-- Settles O23: a rotation by the field and by the field mod W are one. -/
theorem rorRotatesAccumulator : Obligations.RorRotatesAccumulator := by
  refine ⟨catalogueOpcode .ror, fun s imm hinv => ?_⟩
  have h := hinv.dataFits
  refine ⟨h.exec_ror imm, ?_⟩
  rw [h.exec_ror, h.exec_ror, BitVec.rotateRight_mod_eq_rotateRight]

theorem exec_cmps (imm : Nat) (s : State) :
    exec (.cmps imm) s = .next { s with acc := if s.acc = imm then 1 else 0, pc := s.pc + 1 } :=
  State.next_finishAcc_of_selfReferential rfl (by simp only [truth, decide_eq_true_eq])

theorem encode_standard_eq_none {i : Instr} {m : Mnemonic} (hi : i.mnemonic = some m)
    (hm : defaultCatalogue.findIdx? (fun e => decide (e = m)) = none) (W : Nat) (O : OpcodeWidth) :
    encode (Config.standard W O) i = none :=
  Option.map_eq_none_iff.mpr ((opcodeOf_of_mnemonic hi _).trans hm)

/-- Settles O25: CMP compares two bit vectors, CMPS two integers, and the default list holds neither. -/
theorem compareWritesOneOrZero : Obligations.CompareWritesOneOrZero :=
  ⟨catalogueOpcode .cmp, catalogueOpcode .cmps,
    fun O W _ => ⟨encode_standard_eq_none rfl (by decide) W O, encode_standard_eq_none rfl (by decide) W O⟩,
    fun s a => ⟨exec_cmps a s, fun h => h.dataFits.exec_cmp a, fun h => h.dataFits.accVec_eq_wordVec_iff a⟩⟩

end Sys2Proof.Machine
end

section
/-! Division (42_arithmetic.md R153 to R155, R163, R164): the law of quotient and remainder under both roundings, that
their values stay in the canonical range, and DIV and MOD. -/

namespace Sys2Proof.Machine

/-! ### Quotient and remainder -/

theorem mul_quotient_add_remainder (r : DivRounding) (a d : Int) : d * quotient r a d + remainder r a d = a := by
  cases r with
  | trunc => exact Int.mul_tdiv_add_tmod a d
  | floor => rw [remainder_floor]; exact Int.mul_fdiv_add_fmod a d

/-- A truncated remainder lies between 0 and the dividend. -/
theorem remainder_trunc_bounds (a d : Int) :
    (0 ≤ a ∧ 0 ≤ remainder .trunc a d ∧ remainder .trunc a d ≤ a) ∨
      (a ≤ 0 ∧ a ≤ remainder .trunc a d ∧ remainder .trunc a d ≤ 0) := by
  have hle : (a.tmod d).natAbs ≤ a.natAbs := by rw [Int.natAbs_tmod]; exact Nat.mod_le _ _
  simp only [remainder]
  obtain ha | ha := le_total 0 a
  · have h0 := Int.tmod_nonneg d ha
    exact .inl ⟨ha, h0, by omega⟩
  · have h0 := Int.tmod_nonneg (a := -a) d (by omega)
    rw [Int.neg_tmod] at h0
    exact .inr ⟨ha, by omega, by omega⟩

/-- A floored remainder lies between 0 and the divisor. -/
theorem remainder_floor_bounds {d : Int} (hd : d ≠ 0) (a : Int) :
    (0 < d ∧ 0 ≤ remainder .floor a d ∧ remainder .floor a d < d) ∨
      (d < 0 ∧ d < remainder .floor a d ∧ remainder .floor a d ≤ 0) := by
  rw [remainder_floor]
  obtain hpos | hneg := hd.lt_or_gt.symm
  · exact .inl ⟨hpos, Int.fmod_nonneg_of_pos a hpos, Int.fmod_lt_of_pos a hpos⟩
  · have hflip : a.fmod d = -((-a).fmod (-d)) := by rw [Int.neg_fmod_neg, neg_neg]
    have h0 := Int.fmod_nonneg_of_pos (-a) (b := -d) (by omega)
    have hlt := Int.fmod_lt_of_pos (-a) (b := -d) (by omega)
    exact .inr ⟨hneg, by omega, by omega⟩

theorem remainder_trunc_mul_nonneg (a d : Int) : 0 ≤ remainder .trunc a d * a := by
  obtain ⟨ha, h0, -⟩ | ⟨ha, -, h0⟩ := remainder_trunc_bounds a d
  · exact mul_nonneg h0 ha
  · exact mul_nonneg_of_nonpos_of_nonpos h0 ha

theorem remainder_floor_mul_nonneg {d : Int} (hd : d ≠ 0) (a : Int) : 0 ≤ remainder .floor a d * d := by
  obtain ⟨hpos, h0, -⟩ | ⟨hneg, -, h0⟩ := remainder_floor_bounds hd a
  · exact mul_nonneg h0 hpos.le
  · exact mul_nonneg_of_nonpos_of_nonpos h0 hneg.le

theorem abs_remainder_lt (r : DivRounding) {d : Int} (hd : d ≠ 0) (a : Int) : |remainder r a d| < |d| := by
  cases r with
  | trunc =>
    rw [remainder, Int.abs_eq_natAbs, Int.abs_eq_natAbs, Int.natAbs_tmod]
    exact_mod_cast Nat.mod_lt _ (Int.natAbs_pos.mpr hd)
  | floor =>
    obtain ⟨hpos, h0, hlt⟩ | ⟨hneg, hlt, h0⟩ := remainder_floor_bounds hd a
    · rwa [abs_of_nonneg h0, abs_of_pos hpos]
    · rw [abs_of_nonpos h0, abs_of_neg hneg]
      omega

/-! ### The canonical range -/

/-- From a quotient out of range the law gives back a dividend out of range, but for the one overflow, the least integer
divided by -1 (R155). -/
theorem quotient_in_range {M a d q r : Int} (hM : 2 ≤ M) (hlaw : d * q + r = a) (hr : |r| < |d|)
    (ha : -M ≤ a ∧ a ≤ M - 1) (hover : ¬(a = -M ∧ d = -1)) : -M ≤ q ∧ q ≤ M - 1 := by
  obtain ⟨hlo, hhi⟩ := ha
  obtain ⟨hrlo, hrhi⟩ := abs_lt.mp hr
  have hd : d ≠ 0 := abs_pos.mp ((abs_nonneg r).trans_lt hr)
  constructor <;> by_contra hq
  case left =>
    obtain hneg | hpos := hd.lt_or_gt
    · rw [abs_of_neg hneg] at hrlo
      nlinarith
    · rw [abs_of_pos hpos] at hrhi
      nlinarith
  case right =>
    obtain hneg | hpos := hd.lt_or_gt
    · rw [abs_of_neg hneg] at hrlo hrhi
      obtain rfl | hd2 : d = -1 ∨ d ≤ -2 := by omega
      · omega
      · nlinarith
    · rw [abs_of_pos hpos] at hrlo
      nlinarith

theorem canonical_quotient {W : Nat} (hW : 8 ≤ W) (r : DivRounding) {a d : Int} (ha : canonical W a) (hd : d ≠ 0)
    (hover : ¬(a = -((2 ^ (W - 1) : Nat) : Int) ∧ d = -1)) : canonical W (quotient r a d) := by
  have hM : 2 ^ 1 ≤ 2 ^ (W - 1) := Nat.pow_le_pow_right (by omega) (by omega)
  exact quotient_in_range (by omega) (mul_quotient_add_remainder r a d) (abs_remainder_lt r hd a) ha hover

theorem canonical_zero (W : Nat) : canonical W 0 := by
  have := Nat.two_pow_pos (W - 1)
  exact ⟨by omega, by omega⟩

theorem canonical_divValue {W : Nat} (hW : 1 ≤ W) (r : DivRounding) (a d : Int) : canonical W (divValue W r a d) := by
  unfold divValue
  split
  · exact canonical_zero W
  · exact canonical_reduceToRange hW _

theorem canonical_modValue {W : Nat} (r : DivRounding) {a d : Int} (ha : canonical W a) (hd : canonical W d) :
    canonical W (modValue r a d) := by
  obtain rfl | hne := eq_or_ne d 0
  · rw [modValue_zero]
    exact canonical_zero W
  rw [modValue_of_ne hne]
  obtain ⟨hlo, hhi⟩ := ha
  obtain ⟨hdlo, hdhi⟩ := hd
  cases r with
  | trunc =>
    obtain ⟨-, h0, hle⟩ | ⟨-, hle, h0⟩ := remainder_trunc_bounds a d
    · exact ⟨by omega, by omega⟩
    · exact ⟨by omega, by omega⟩
  | floor =>
    obtain ⟨hpos, h0, hlt⟩ | ⟨hneg, hlt, h0⟩ := remainder_floor_bounds hne a
    · exact ⟨by omega, by omega⟩
    · exact ⟨by omega, by omega⟩

theorem canonical_divImmValue {W : Nat} (hW : 8 ≤ W) (r : DivRounding) {a : Int} (ha : canonical W a) (imm : Nat) :
    canonical W (divImmValue r a imm) := by
  obtain hzero | hne := eq_or_ne (imm : Int) 0
  · rw [hzero, divImmValue_zero]
    exact canonical_zero W
  · rw [divImmValue_of_ne hne]
    exact canonical_quotient hW r ha hne (by omega)

/-! ### DIV and MOD -/

@[simp] theorem divValue_zero (W : Nat) (r : DivRounding) (a : Int) : divValue W r a 0 = 0 :=
  if_pos rfl

theorem divValue_of_ne {d : Int} (hd : d ≠ 0) (W : Nat) (r : DivRounding) (a : Int) :
    divValue W r a d = reduceToRange W (quotient r a d) :=
  if_neg hd

theorem exec_div (a : Nat) (s : State) :
    exec (.div a) s = .next { s with
      acc := divValue s.cfg.wordWidth s.cfg.divRounding s.acc (toSigned s.cfg.wordWidth (Memory.read s.mem a))
      pc := s.pc + 1, memLen := max s.memLen (a + 1) } :=
  State.next_finishAcc_of_addressed rfl rfl

theorem exec_mod (a : Nat) (s : State) :
    exec (.mod a) s = .next { s with
      acc := modValue s.cfg.divRounding s.acc (toSigned s.cfg.wordWidth (Memory.read s.mem a))
      pc := s.pc + 1, memLen := max s.memLen (a + 1) } :=
  State.next_finishAcc_of_addressed rfl rfl

/-- Settles O16: the two values by a zero divisor and, under each rounding, by any other. -/
theorem divModWriteQuotientAndRemainder : Obligations.DivModWriteQuotientAndRemainder := by
  refine ⟨catalogueOpcode .div, catalogueOpcode .mod, ?_⟩
  rintro s a _ rfl
  refine ⟨_, _, exec_div a s, exec_mod a s, ?zero, ?trunc, ?floor⟩
  case zero =>
    intro hd
    rw [hd]
    exact ⟨divValue_zero _ _ _, modValue_zero _ _⟩
  case trunc =>
    intro hd hround
    rw [divValue_of_ne hd, modValue_of_ne hd, hround]
    exact ⟨rfl, rfl⟩
  case floor =>
    intro hd hround
    rw [divValue_of_ne hd, modValue_of_ne hd, hround]
    exact ⟨rfl, rfl⟩

theorem remainder_neg_one (r : DivRounding) (a : Int) : remainder r a (-1) = 0 := by
  simpa using abs_remainder_lt r (d := -1) (by decide) a

theorem quotient_neg_one (r : DivRounding) (a : Int) : quotient r a (-1) = -a := by
  have hlaw := mul_quotient_add_remainder r a (-1)
  rw [remainder_neg_one] at hlaw
  omega

/-- The overflowing quotient wraps to the dividend (R155). -/
theorem divValue_overflow {W : Nat} (hW : 1 ≤ W) (r : DivRounding) :
    divValue W r (-((2 ^ (W - 1) : Nat) : Int)) (-1) = -((2 ^ (W - 1) : Nat) : Int) := by
  have hpos := Nat.two_pow_pos (W - 1)
  have hcan : canonical W (-((2 ^ (W - 1) : Nat) : Int)) := ⟨le_rfl, by omega⟩
  have hdvd : (2 : Int) ^ W ∣ (2 ^ (W - 1) : Nat) - -((2 ^ (W - 1) : Nat) : Int) :=
    Dvd.intro 1 (by have h2 := two_pow_pred hW; zify at h2; push_cast; linarith)
  rw [divValue_of_ne (by decide), quotient_neg_one, neg_neg, reduceToRange_congr hdvd,
    reduceToRange_of_canonical hW hcan]

/-- Settles O17: a quotient in range is its own reduction, so the integers' law carries over. -/
theorem divModObeyDivisionLaw : Obligations.DivModObeyDivisionLaw := by
  intro s t u a d hinv hread hd hdiv hmod
  obtain ⟨⟨h8, -⟩, hacc, -⟩ := hinv
  rw [exec_div, hread] at hdiv
  rw [exec_mod, hread, modValue_of_ne hd] at hmod
  cases hdiv
  cases hmod
  have hmin : (-2 ^ (s.cfg.wordWidth - 1) : Int) = -((2 ^ (s.cfg.wordWidth - 1) : Nat) : Int) := by push_cast; rfl
  refine ⟨abs_remainder_lt _ hd _, ?trunc, ?floor, ?law, ?overflow⟩
  case trunc =>
    intro hround
    rw [hround]
    exact remainder_trunc_mul_nonneg s.acc d
  case floor =>
    intro hround
    rw [hround]
    exact remainder_floor_mul_nonneg hd s.acc
  case law =>
    intro hover
    rw [hmin] at hover
    have hcan := canonical_quotient h8 s.cfg.divRounding hacc hd hover
    rw [divValue_of_ne hd, reduceToRange_of_canonical (by omega) hcan, mul_quotient_add_remainder]
  case overflow =>
    rintro hleast rfl
    rw [hleast, hmin]
    exact ⟨divValue_overflow (by omega) _, remainder_neg_one _ _⟩

end Sys2Proof.Machine
end

section
/-! The integer arithmetic unit as a W-bit datapath (42_arithmetic.md sections 1 to 4): every value an arithmetic
instruction writes is an operation of bit vectors. -/

namespace Sys2Proof.Machine

/-! ### The division values -/

theorem divValue_eq {W : Nat} (hW : 1 ≤ W) (r : DivRounding) (a d : Int) :
    divValue W r a d = reduceToRange W (quotient r a d) := by
  obtain rfl | hd := eq_or_ne d 0
  · have hquot : quotient r a 0 = 0 := by cases r <;> simp [quotient]
    rw [divValue_zero, hquot, reduceToRange_of_canonical hW (canonical_zero W)]
  · exact divValue_of_ne hd W r a

/-- DIVS need not reduce: by an address field no quotient overflows (log 12). -/
theorem divImmValue_eq_divValue {W : Nat} (hW : 8 ≤ W) (r : DivRounding) {a : Int} (ha : canonical W a) (imm : Nat) :
    divImmValue r a imm = divValue W r a imm := by
  obtain hzero | hne := eq_or_ne (imm : Int) 0
  · rw [hzero, divImmValue_zero, divValue_zero]
  · have hcan := canonical_quotient hW r ha hne (by omega)
    rw [divImmValue_of_ne hne, divValue_of_ne hne, reduceToRange_of_canonical (by omega) hcan]

theorem divValue_trunc_toInt {W : Nat} (hW : 1 ≤ W) (x y : BitVec W) :
    divValue W .trunc x.toInt y.toInt = (x.sdiv y).toInt := by
  rw [divValue_eq hW, reduceToRange_eq_toInt hW, BitVec.toInt_ofInt, BitVec.toInt_sdiv]
  rfl

theorem divValue_floor_toInt {W : Nat} (hW : 1 ≤ W) (x y : BitVec W) :
    divValue W .floor x.toInt y.toInt = (BitVec.ofInt W (x.toInt.fdiv y.toInt)).toInt := by
  rw [divValue_eq hW, reduceToRange_eq_toInt hW]
  rfl

theorem modValue_trunc_toInt {W : Nat} (x y : BitVec W) :
    modValue .trunc x.toInt y.toInt = if y = 0 then 0 else (x.srem y).toInt := by
  simp only [modValue, remainder, toInt_eq_zero_iff, BitVec.toInt_srem]

theorem modValue_floor_toInt {W : Nat} (x y : BitVec W) :
    modValue .floor x.toInt y.toInt = if y = 0 then 0 else (x.smod y).toInt := by
  simp only [modValue, remainder_floor, toInt_eq_zero_iff, BitVec.toInt_smod]

/-- A number that its pattern is read back as is zero exactly if the pattern is. -/
theorem eq_zero_iff_of_toInt_ofNat {W n : Nat} (h : (BitVec.ofNat W n).toInt = n) : n = 0 ↔ BitVec.ofNat W n = 0 := by
  rw [← toInt_eq_zero_iff, h, Int.natCast_eq_zero]

/-! ### The instructions -/

/-- An address field is half a word's range at most, so it is the signed reading of its own pattern. -/
theorem toInt_ofNat_addressField {cfg : Config} (h : cfg.legal) {a : Nat}
    (ha : a < 2 ^ (cfg.wordWidth - cfg.opcodeWidth.bits)) : (BitVec.ofNat cfg.wordWidth a).toInt = a := by
  have h8 := h.eight_le_wordWidth
  have hbits : 1 ≤ cfg.opcodeWidth.bits := by cases cfg.opcodeWidth <;> decide
  exact toInt_ofNat_of_lt (by omega) (ha.trans_le (Nat.pow_le_pow_right (by omega) (by omega)))

namespace State.DataFits

variable {s : State} (h : s.DataFits)
include h

theorem exec_add (a : Nat) :
    exec (.add a) s = .next { s with
      acc := (s.accVec + s.wordVec a).toInt, pc := s.pc + 1, memLen := max s.memLen (a + 1) } := by
  rw [Machine.exec_add, reduceToRange_eq_toInt h.width_pos, BitVec.ofInt_add, ← h.wordVec_toInt, BitVec.ofInt_toInt]
  rfl

theorem exec_sub (a : Nat) :
    exec (.sub a) s = .next { s with
      acc := (s.accVec - s.wordVec a).toInt, pc := s.pc + 1, memLen := max s.memLen (a + 1) } := by
  rw [Machine.exec_sub, reduceToRange_eq_toInt h.width_pos, ofInt_sub, ← h.wordVec_toInt, BitVec.ofInt_toInt]
  rfl

theorem exec_mul (a : Nat) :
    exec (.mul a) s = .next { s with
      acc := (s.accVec * s.wordVec a).toInt, pc := s.pc + 1, memLen := max s.memLen (a + 1) } := by
  rw [Machine.exec_mul, reduceToRange_eq_toInt h.width_pos, BitVec.ofInt_mul, ← h.wordVec_toInt, BitVec.ofInt_toInt]
  rfl

theorem exec_adds (imm : Nat) :
    exec (.adds imm) s = .next { s with
      acc := (s.accVec + BitVec.ofNat s.cfg.wordWidth imm).toInt, pc := s.pc + 1 } := by
  rw [Machine.exec_adds, reduceToRange_eq_toInt h.width_pos, BitVec.ofInt_add, BitVec.ofInt_natCast]
  rfl

theorem exec_subs (imm : Nat) :
    exec (.subs imm) s = .next { s with
      acc := (s.accVec - BitVec.ofNat s.cfg.wordWidth imm).toInt, pc := s.pc + 1 } := by
  rw [Machine.exec_subs, reduceToRange_eq_toInt h.width_pos, ofInt_sub, BitVec.ofInt_natCast]
  rfl

theorem exec_muls (imm : Nat) :
    exec (.muls imm) s = .next { s with
      acc := (s.accVec * BitVec.ofNat s.cfg.wordWidth imm).toInt, pc := s.pc + 1 } := by
  rw [Machine.exec_muls, reduceToRange_eq_toInt h.width_pos, BitVec.ofInt_mul, BitVec.ofInt_natCast]
  rfl

theorem exec_div_of_trunc (hround : s.cfg.divRounding = .trunc) (a : Nat) :
    exec (.div a) s = .next { s with
      acc := (s.accVec.sdiv (s.wordVec a)).toInt, pc := s.pc + 1, memLen := max s.memLen (a + 1) } := by
  rw [exec_div, hround, ← divValue_trunc_toInt h.width_pos, h.accVec_toInt, h.wordVec_toInt]

theorem exec_div_of_floor (hround : s.cfg.divRounding = .floor) (a : Nat) :
    exec (.div a) s = .next { s with
      acc := (BitVec.ofInt s.cfg.wordWidth (s.accVec.toInt.fdiv (s.wordVec a).toInt)).toInt
      pc := s.pc + 1, memLen := max s.memLen (a + 1) } := by
  rw [exec_div, hround, ← divValue_floor_toInt h.width_pos, h.accVec_toInt, h.wordVec_toInt]

theorem exec_mod_of_trunc (hround : s.cfg.divRounding = .trunc) (a : Nat) :
    exec (.mod a) s = .next { s with
      acc := if s.wordVec a = 0 then 0 else (s.accVec.srem (s.wordVec a)).toInt
      pc := s.pc + 1, memLen := max s.memLen (a + 1) } := by
  rw [exec_mod, hround, ← modValue_trunc_toInt, h.accVec_toInt, h.wordVec_toInt]

theorem exec_mod_of_floor (hround : s.cfg.divRounding = .floor) (a : Nat) :
    exec (.mod a) s = .next { s with
      acc := if s.wordVec a = 0 then 0 else (s.accVec.smod (s.wordVec a)).toInt
      pc := s.pc + 1, memLen := max s.memLen (a + 1) } := by
  rw [exec_mod, hround, ← modValue_floor_toInt, h.accVec_toInt, h.wordVec_toInt]

section

variable {imm : Nat} (himm : (BitVec.ofNat s.cfg.wordWidth imm).toInt = imm)
include himm

theorem exec_divs_of_trunc (hround : s.cfg.divRounding = .trunc) :
    exec (.divs imm) s = .next { s with
      acc := (s.accVec.sdiv (BitVec.ofNat s.cfg.wordWidth imm)).toInt, pc := s.pc + 1 } := by
  rw [exec_divs, divImmValue_eq_divValue h.legal.eight_le_wordWidth _ h.acc, hround, ← divValue_trunc_toInt h.width_pos,
    h.accVec_toInt, himm]

theorem exec_divs_of_floor (hround : s.cfg.divRounding = .floor) :
    exec (.divs imm) s = .next { s with
      acc := (BitVec.ofInt s.cfg.wordWidth (s.accVec.toInt.fdiv imm)).toInt, pc := s.pc + 1 } := by
  rw [exec_divs, divImmValue_eq_divValue h.legal.eight_le_wordWidth _ h.acc, hround, ← himm, ← divValue_floor_toInt h.width_pos,
    h.accVec_toInt]

theorem exec_mods_of_trunc (hround : s.cfg.divRounding = .trunc) :
    exec (.mods imm) s = .next { s with
      acc := if imm = 0 then 0 else (s.accVec.srem (BitVec.ofNat s.cfg.wordWidth imm)).toInt
      pc := s.pc + 1 } := by
  rw [exec_mods, hround]
  simp only [eq_zero_iff_of_toInt_ofNat himm, ← modValue_trunc_toInt, h.accVec_toInt, himm]

theorem exec_mods_of_floor (hround : s.cfg.divRounding = .floor) :
    exec (.mods imm) s = .next { s with
      acc := if imm = 0 then 0 else (s.accVec.smod (BitVec.ofNat s.cfg.wordWidth imm)).toInt
      pc := s.pc + 1 } := by
  rw [exec_mods, hround]
  simp only [eq_zero_iff_of_toInt_ofNat himm, ← modValue_floor_toInt, h.accVec_toInt, himm]

end

end State.DataFits

/-! ### The obligations -/

/-- Settles O15: one bit vector operation for each form and rounding. -/
theorem arithmeticIsBitVectorDatapath : Obligations.ArithmeticIsBitVectorDatapath := by
  intro s a hinv
  have h := hinv.dataFits
  refine ⟨h.exec_add a, h.exec_sub a, h.exec_mul a, ?trunc, ?floor, h.exec_adds a, h.exec_subs a, h.exec_muls a,
    ?immediate⟩
  case trunc => exact fun hround => ⟨h.exec_div_of_trunc hround a, h.exec_mod_of_trunc hround a⟩
  case floor => exact fun hround => ⟨h.exec_div_of_floor hround a, h.exec_mod_of_floor hround a⟩
  case immediate =>
    intro ha
    have himm := toInt_ofNat_addressField h.legal ha
    exact ⟨fun hround => ⟨h.exec_divs_of_trunc himm hround, h.exec_mods_of_trunc himm hround⟩,
      fun hround => ⟨h.exec_divs_of_floor himm hround, h.exec_mods_of_floor himm hround⟩⟩

/-- Settles O20: ADB and ADD are the one sum of bit vectors. -/
theorem adbAddsPatternsLikeAdd : Obligations.AdbAddsPatternsLikeAdd := by
  refine ⟨catalogueOpcode .adb, fun s a hinv => ?_⟩
  have h := hinv.dataFits
  exact ⟨h.exec_adb a, (h.exec_adb a).trans (h.exec_add a).symm⟩

end Sys2Proof.Machine
end

section
/-! Numbers as text (44_io.md R200, R214): the digits OUT appends, the batch parse of INP, and that the parse reads back
what OUT appended. -/

namespace Sys2Proof.Machine

/-! ### The digits of a number -/

/-- The text is the usual spelling of n: one or more digits of value n, with no leading zero but in "0". -/
structure Spells (ds : Text) (n : Nat) : Prop where
  ne_nil : ds ≠ []
  digits : ∀ c ∈ ds, 48 ≤ c ∧ c ≤ 57
  value : digitValue ds = n
  noLeadingZero : ds.head? = some 48 → n = 0 ∧ ds = [48]

theorem digitValue_concat (ds : Text) (c : Nat) : digitValue (ds ++ [c]) = 10 * digitValue ds + (c - 48) := by
  simp [digitValue]

theorem spells_single {n : Nat} (h : n < 10) : Spells [48 + n] n where
  ne_nil := by simp
  digits := by simp; omega
  value := by simp [digitValue]
  noLeadingZero := by simp

theorem Spells.concat {ds : Text} {n : Nat} (h : Spells ds (n / 10)) (hn : ¬n < 10) :
    Spells (ds ++ [48 + n % 10]) n where
  ne_nil := by simp
  digits := by
    intro c hc
    obtain hc | hc := List.mem_append.mp hc
    · exact h.digits c hc
    · have := List.mem_singleton.mp hc
      omega
  value := by rw [digitValue_concat, h.value]; omega
  noLeadingZero := by
    rw [List.head?_append_of_ne_nil _ h.ne_nil]
    intro hhead
    have := (h.noLeadingZero hhead).1
    omega

/-- With enough fuel the digits found come out before those already there. -/
theorem exists_digitsOnto_eq (fuel : Nat) {n : Nat} (h : n < 10 ^ (fuel + 1)) (found : Text) :
    ∃ ds, Spells ds n ∧ digitsOnto (fuel + 1) n found = ds ++ found := by
  induction fuel generalizing n found with
  | zero =>
    have hn : n < 10 := by simpa using h
    exact ⟨[48 + n], spells_single hn, by simp [digitsOnto, hn]⟩
  | succ fuel ih =>
    by_cases hn : n < 10
    · exact ⟨[48 + n], spells_single hn, by simp [digitsOnto, hn]⟩
    · obtain ⟨ds, hds, heq⟩ := ih (n := n / 10) (by omega) ((48 + n % 10) :: found)
      refine ⟨ds ++ [48 + n % 10], hds.concat hn, ?_⟩
      rw [digitsOnto, if_neg hn, heq, List.append_assoc, List.singleton_append]

theorem spells_digits (n : Nat) : Spells (digits n) n := by
  have hfuel : n < 10 ^ (n.log2 + 1) := Nat.lt_log2_self.trans_le (Nat.pow_le_pow_left (by decide) _)
  obtain ⟨ds, hds, heq⟩ := exists_digitsOnto_eq n.log2 hfuel []
  rwa [digits, heq, List.append_nil]

/-- Settles O33: the digits of |n| spell it. -/
theorem decimalSpellsTheNumber : Obligations.DecimalSpellsTheNumber := by
  intro n
  obtain ⟨hne, hdigits, hvalue, hlead⟩ := spells_digits n.natAbs
  exact ⟨digits n.natAbs, rfl, hne, hdigits, hvalue, fun h => (hlead h).imp_left Int.natAbs_eq_zero.mp⟩

/-! ### The batch parse -/

theorem isDigit_iff (c : Nat) : isDigit c = true ↔ 48 ≤ c ∧ c ≤ 57 := by
  simp [isDigit]

theorem isSpace_eq_false_of_gt {c : Nat} (h : 32 < c) : isSpace c = false := by
  simp [isSpace]
  omega

theorem dropWhile_append_append {α : Type} {p : α → Bool} {xs core ys : List α} (hxs : ∀ c ∈ xs, p c = true)
    (hne : core ≠ []) (hcore : ∀ c ∈ core, p c = false) : (xs ++ (core ++ ys)).dropWhile p = core ++ ys := by
  obtain ⟨c, core, rfl⟩ := List.exists_cons_of_ne_nil hne
  rw [List.dropWhile_append_of_pos hxs, List.cons_append, List.dropWhile_cons_of_neg]
  simp [hcore c List.mem_cons_self]

/-- Where white space is around a text without any, trimming leaves the text. -/
theorem trim_append {pre post core : Text} (hspace : ∀ c ∈ pre ++ post, isSpace c = true) (hne : core ≠ [])
    (hcore : ∀ c ∈ core, isSpace c = false) : trim (pre ++ core ++ post) = core := by
  have hfront : (pre ++ core ++ post).dropWhile isSpace = core ++ post := by
    rw [List.append_assoc, dropWhile_append_append (fun c hc => hspace c (List.mem_append_left _ hc)) hne hcore]
  have hback : (core ++ post).reverse.dropWhile isSpace = core.reverse := by
    simpa using dropWhile_append_append (ys := [])
      (fun c hc => hspace c (List.mem_append_right _ (List.mem_reverse.mp hc))) (List.reverse_ne_nil_iff.mpr hne)
      (fun c hc => hcore c (List.mem_reverse.mp hc))
  rw [trim, hfront, hback, List.reverse_reverse]

theorem reverse_dropWhile_append_takeWhile {α : Type} (p : α → Bool) (xs : List α) :
    (xs.reverse.dropWhile p).reverse ++ (xs.reverse.takeWhile p).reverse = xs := by
  rw [← List.reverse_append, List.takeWhile_append_dropWhile, List.reverse_reverse]

/-- A text is what trimming leaves with white space around it. -/
theorem exists_eq_append_trim (text : Text) :
    ∃ pre post : Text, (∀ c ∈ pre ++ post, isSpace c = true) ∧ text = pre ++ trim text ++ post := by
  refine ⟨text.takeWhile isSpace, ((text.dropWhile isSpace).reverse.takeWhile isSpace).reverse, fun c hc => ?_, ?_⟩
  · obtain hc | hc := List.mem_append.mp hc
    · exact List.mem_takeWhile_imp hc
    · exact List.mem_takeWhile_imp (List.mem_reverse.mp hc)
  · rw [List.append_assoc, trim, reverse_dropWhile_append_takeWhile, List.takeWhile_append_dropWhile]

theorem parseDigits_eq_some_iff (ds : Text) (n : Nat) :
    parseDigits ds = some n ↔ (ds ≠ [] ∧ ∀ c ∈ ds, 48 ≤ c ∧ c ≤ 57) ∧ digitValue ds = n := by
  simp only [parseDigits, List.all_eq_true, isDigit_iff, Option.ite_none_right_eq_some, Option.some.injEq]
  rfl

theorem parseDigits_eq_some {ds : Text} (hne : ds ≠ []) (hdigits : ∀ c ∈ ds, 48 ≤ c ∧ c ≤ 57) :
    parseDigits ds = some (digitValue ds) :=
  (parseDigits_eq_some_iff ds _).mpr ⟨⟨hne, hdigits⟩, rfl⟩

/-- Digits are no sign, so the parse takes the whole trimmed line for them. -/
theorem parseInteger_of_trim_digits {line ds : Text} (hne : ds ≠ []) (hdigits : ∀ c ∈ ds, 48 ≤ c ∧ c ≤ 57)
    (h : trim line = ds) : parseInteger line = digitValue ds := by
  have hparse := parseDigits_eq_some hne hdigits
  obtain ⟨d, ds, rfl⟩ := List.exists_cons_of_ne_nil hne
  obtain ⟨hd, -⟩ := hdigits d List.mem_cons_self
  unfold parseInteger
  rw [h]
  split
  case h_1 heq =>
    cases heq
    omega
  case h_2 heq =>
    cases heq
    omega
  case h_3 => rw [hparse, Option.elim_some]

theorem parseInteger_of_trim_plus {line ds : Text} (hne : ds ≠ []) (hdigits : ∀ c ∈ ds, 48 ≤ c ∧ c ≤ 57)
    (h : trim line = 43 :: ds) : parseInteger line = digitValue ds := by
  simp only [parseInteger, h, parseDigits_eq_some hne hdigits, Option.elim_some]

theorem parseInteger_of_trim_minus {line ds : Text} (hne : ds ≠ []) (hdigits : ∀ c ∈ ds, 48 ≤ c ∧ c ≤ 57)
    (h : trim line = 45 :: ds) : parseInteger line = -(digitValue ds : Int) := by
  simp only [parseInteger, h, parseDigits_eq_some hne hdigits, Option.elim_some]

theorem digits_of_elim_ne_zero {ds : Text} {f : Nat → Int} (h : (parseDigits ds).elim 0 f ≠ 0) :
    ds ≠ [] ∧ ∀ c ∈ ds, 48 ≤ c ∧ c ≤ 57 := by
  cases hparse : parseDigits ds with
  | none => simp [hparse] at h
  | some n => exact ((parseDigits_eq_some_iff ds n).mp hparse).1

/-- Nothing but an optional sign and digits is read as a number other than 0. -/
theorem exists_digits_of_parseInteger_ne_zero {line : Text} (h : parseInteger line ≠ 0) :
    ∃ ds : Text, (ds ≠ [] ∧ ∀ c ∈ ds, 48 ≤ c ∧ c ≤ 57) ∧
      (trim line = ds ∨ trim line = 43 :: ds ∨ trim line = 45 :: ds) := by
  unfold parseInteger at h
  split at h
  case h_1 ds heq => exact ⟨ds, digits_of_elim_ne_zero h, .inr (.inr heq)⟩
  case h_2 ds heq => exact ⟨ds, digits_of_elim_ne_zero h, .inr (.inl heq)⟩
  case h_3 => exact ⟨trim line, digits_of_elim_ne_zero h, .inl rfl⟩

/-- Settles O39: neither a sign nor a digit is white space, so trimming finds them; and what trimming takes away is
white space. -/
theorem batchParseReadsSignedDecimal : Obligations.BatchParseReadsSignedDecimal := by
  refine ⟨fun pre ds post hspace hne hdigits => ?reads, fun text hread => ?form⟩
  case reads =>
    have hds : ∀ c ∈ ds, isSpace c = false := fun c hc => isSpace_eq_false_of_gt (by have := hdigits c hc; omega)
    have hsigned : ∀ sign, 32 < sign → trim (pre ++ sign :: ds ++ post) = sign :: ds := fun sign hsign =>
      trim_append hspace (List.cons_ne_nil _ _) (List.forall_mem_cons.mpr ⟨isSpace_eq_false_of_gt hsign, hds⟩)
    exact ⟨parseInteger_of_trim_digits hne hdigits (trim_append hspace hne hds),
      parseInteger_of_trim_plus hne hdigits (hsigned 43 (by decide)),
      parseInteger_of_trim_minus hne hdigits (hsigned 45 (by decide))⟩
  case form =>
    obtain ⟨ds, ⟨hne, hdigits⟩, htrim⟩ := exists_digits_of_parseInteger_ne_zero hread
    obtain ⟨pre, post, hspace, htext⟩ := exists_eq_append_trim text
    refine ⟨pre, ds, post, hspace, hne, hdigits, ?_⟩
    refine htrim.imp ?_ (Or.imp ?_ ?_)
    all_goals
      intro h
      rwa [h] at htext

/-! ### Reading back what was written -/

theorem parseInteger_decimal_append (n : Int) {post : Text} (hpost : ∀ c ∈ post, isSpace c = true) :
    parseInteger (decimal n ++ post) = n := by
  obtain ⟨hne, hdigits, hvalue, -⟩ := spells_digits n.natAbs
  obtain ⟨hplain, -, hminus⟩ := batchParseReadsSignedDecimal.1 [] (digits n.natAbs) post hpost hne hdigits
  rw [hvalue, List.nil_append] at hplain hminus
  unfold decimal
  split
  case isTrue hneg => rw [hminus]; omega
  case isFalse hnonneg => rw [hplain]; omega

/-- Settles O34: the newline of OUT is white space to the parse. -/
theorem batchInputReadsBackOutput : Obligations.BatchInputReadsBackOutput := by
  intro n lines
  have hline : parseInteger (decimal n) = n := by
    simpa using parseInteger_decimal_append n (post := []) (by simp)
  have hnewline : parseInteger (decimal n ++ [10]) = n := parseInteger_decimal_append n (by decide)
  simp only [Provider.takeInteger, hline, hnewline, and_self]

end Sys2Proof.Machine
end

section
/-! The input provider (44_io.md R212 to R215) and the characters INA packs (R203). -/

namespace Sys2Proof.Machine

/-! ### The strings the provider answers -/

theorem validAscii_iff (W : Nat) (t : Text) : validAscii W t = true ↔ t.length ≤ W / 8 ∧ ∀ c ∈ t, c ≤ 127 := by
  rw [validAscii, Bool.and_eq_true, decide_eq_true_eq, List.all_eq_true]
  simp only [decide_eq_true_eq, charsPerWord]

/-- A batch line gives its first characters and keeps the rest, if there is any (R215). -/
theorem Provider.takeAscii_batch_cons (W : Nat) (row : Text) (rows : List Text) :
    Provider.takeAscii W (.batch (row :: rows)) =
      some ((row.take (W / 8)).map (fun c => if 127 < c then 0 else c),
        .batch (if row.length ≤ W / 8 then rows else row.drop (W / 8) :: rows)) := by
  simp only [Provider.takeAscii, charsPerWord, ← List.drop_eq_nil_iff]
  split
  case h_1 hnil => rw [if_pos hnil]
  case h_2 hcons => rw [hcons, if_neg (List.cons_ne_nil _ _)]

/-- Every answer is valid: an interactive one is asked again until it is (R212), a batch one is cut and zeroed
(R215). -/
theorem validAscii_of_takeAscii {W : Nat} {p q : Provider} {t : Text} (h : p.takeAscii W = some (t, q)) :
    validAscii W t = true := by
  match p with
  | .interactive ns ts =>
    simp only [Provider.takeAscii] at h
    split at h
    · cases h
    · rename_i heq
      cases h
      have hhead := List.head_dropWhile_not (fun t => !validAscii W t) (l := ts) (by simp [heq])
      simpa [heq] using hhead
  | .batch [] =>
    cases h
    simp [validAscii_iff]
  | .batch (row :: rows) =>
    rw [Provider.takeAscii_batch_cons] at h
    cases h
    refine (validAscii_iff _ _).mpr ⟨by simp, fun c hc => ?_⟩
    obtain ⟨d, -, rfl⟩ := List.mem_map.mp hc
    split <;> omega

/-- Settles O38. -/
theorem providerStringsAreShortAscii : Obligations.ProviderStringsAreShortAscii :=
  fun W _ _ text h => (validAscii_iff W text).mp (validAscii_of_takeAscii h)

theorem parseInteger_eq_zero_of_no_digit {row : Text} (h : ∀ c ∈ row, ¬(48 ≤ c ∧ c ≤ 57)) : parseInteger row = 0 := by
  by_contra hne
  obtain ⟨pre, ds, post, -, hds, hdigits, hform⟩ := batchParseReadsSignedDecimal.2 row hne
  obtain ⟨d, hd⟩ := List.exists_mem_of_ne_nil ds hds
  have hmem : d ∈ row := by obtain rfl | rfl | rfl := hform <;> simp [hd]
  exact h d hmem (hdigits d hd)

/-- Settles O40: each clause is the provider's answer to its request. -/
theorem batchQueueIsFirstInFirstOut : Obligations.BatchQueueIsFirstInFirstOut := by
  intro W row rows
  refine ⟨rfl, rfl, ⟨parseInteger row, rfl⟩, fun h => ?_, _, _, Provider.takeAscii_batch_cons W row rows, by simp,
    ?_, rfl⟩
  · rw [← parseInteger_eq_zero_of_no_digit h]
    rfl
  · intro i c hi hc
    rw [List.getElem?_map, List.getElem?_take_of_lt hi, hc]
    simp only [Option.map_some, ← not_le, ite_not]

/-! ### Packing characters -/

theorem packAscii_byte {t : Text} (h : ∀ c ∈ t, c ≤ 127) (i : Nat) : packAscii t / 256 ^ i % 256 = t.getD i 0 := by
  induction t generalizing i with
  | nil => simp [packAscii]
  | cons b t ih =>
    have hb := h b List.mem_cons_self
    cases i with
    | zero =>
      rw [packAscii]
      simp
      omega
    | succ i =>
      have hshift : packAscii (b :: t) / 256 = packAscii t := by rw [packAscii]; omega
      rw [pow_succ', ← Nat.div_div_eq_div_mul, hshift, ih (fun c hc => h c (List.mem_cons_of_mem _ hc))]
      simp

/-- The top bit of the last character is clear, so the sign bit of the word is. -/
theorem two_mul_packAscii_lt {t : Text} (h : ∀ c ∈ t, c ≤ 127) : 2 * packAscii t < 2 ^ (8 * t.length) := by
  induction t with
  | nil => simp [packAscii]
  | cons b t ih =>
    have hb := h b List.mem_cons_self
    have ht := ih (fun c hc => h c (List.mem_cons_of_mem _ hc))
    rw [packAscii, List.length_cons, Nat.mul_add 8, Nat.pow_add]
    omega

theorem packAscii_lt {W : Nat} (hW : 1 ≤ W) {t : Text} (h : validAscii W t = true) :
    packAscii t < 2 ^ (W - 1) := by
  obtain ⟨hlen, hascii⟩ := (validAscii_iff W t).mp h
  have hpow : 2 ^ (8 * t.length) ≤ 2 ^ W := Nat.pow_le_pow_right (by omega) (by omega)
  have h2 := two_pow_pred hW
  have hlt := two_mul_packAscii_lt hascii
  omega

/-- A packed string is read back as the non-negative number it is. -/
theorem toSigned_packAscii {W : Nat} (hW : 1 ≤ W) {t : Text} (h : validAscii W t = true) :
    toSigned W (packAscii t) = packAscii t := by
  have hlt := packAscii_lt hW h
  exact if_neg (by omega)

/-! ### INA -/

theorem exec_ina_of_answered {s : State} {t : Text} {p : Provider}
    (h : s.input.takeAscii s.cfg.wordWidth = some (t, p)) (a : Nat) :
    exec (.ina a) s = .next { s with
      acc := if a = 0 then toSigned s.cfg.wordWidth (packAscii t) else s.acc
      mem := if a = 0 then s.mem else Memory.write a (packAscii t) s.mem
      memLen := max s.memLen (a + 1)
      status := if s.stopPending && decide (s.status = .running) then .idle else s.status
      pc := s.pc + 1, input := p, request := none, stopPending := false } := by
  obtain ⟨hnone, -⟩ | ⟨t', p', hsome, hdone⟩ := execIna_cases a s
  · cases hnone.symm.trans h
  · cases hsome.symm.trans h
    exact hdone.trans (congrArg Host.Outcome.next (State.storeInput_answered_of_addressed rfl s a p _ _))

/-- Settles O37: the packed word has the characters as its bytes and a clear sign bit. -/
theorem inaPacksCharactersLittleEndian : Obligations.InaPacksCharactersLittleEndian := by
  refine ⟨catalogueOpcode .ina, fun s a text p hlegal hanswer => ?_⟩
  have hW := hlegal.one_le_wordWidth
  have hvalid := validAscii_of_takeAscii hanswer
  obtain ⟨-, hascii⟩ := (validAscii_iff _ _).mp hvalid
  refine ⟨_, packAscii text, exec_ina_of_answered hanswer a, packAscii_byte hascii, packAscii_lt hW hvalid, ?acc,
    Memory.read_storeInput a _ s.mem, ?status, rfl⟩
  case acc => rw [toSigned_packAscii hW hvalid]
  case status => simp only [Bool.and_eq_true, decide_eq_true_eq]

end Sys2Proof.Machine
end

section
/-! Output (44_io.md R200, R201): the whole next state of OUT and OUA, and the groups OUA appends. -/

namespace Sys2Proof.Machine

/-- How an addressed entry that appends a text completes. -/
theorem State.advance_emit_formOperand_of_addressed {m : Mnemonic} (h : targetKind m = .addressed) (s : State) (a : Nat)
    (text : Text) :
    ((s.formOperand m a).emit text).advance = { s with
      out := s.out ++ [text], pc := s.pc + 1, memLen := max s.memLen (a + 1) } := by
  simp only [State.formOperand, h, State.touch_eq]
  rfl

theorem exec_out (a : Nat) (s : State) :
    exec (.out a) s = .next { s with
      out := s.out ++ [decimal (toSigned s.cfg.wordWidth (Memory.read s.mem a)) ++ [10]]
      pc := s.pc + 1, memLen := max s.memLen (a + 1) } :=
  congrArg Host.Outcome.next (State.advance_emit_formOperand_of_addressed rfl s a _)

theorem exec_oua (a : Nat) (s : State) :
    exec (.oua a) s = .next { s with
      out := s.out ++ [ouaText s.cfg.ouaGroupAlign s.cfg.wordWidth (Memory.read s.mem a)]
      pc := s.pc + 1, memLen := max s.memLen (a + 1) } :=
  congrArg Host.Outcome.next (State.advance_emit_formOperand_of_addressed rfl s a _)

/-- Settles O32: the number appended is the signed reading of the word. -/
theorem outAppendsDecimalAndNewline : Obligations.OutAppendsDecimalAndNewline := by
  refine ⟨catalogueOpcode .out, fun s a hinv => ?_⟩
  rw [exec_out, hinv.dataFits.wordVec_toInt]

/-! ### The groups of a word -/

/-- Under lsb alignment group k is byte k, the top one being cut off at the width. -/
theorem ouaGroup_lsb {W u : Nat} (hu : u < 2 ^ W) {j : Nat} (hj : j < (W + 7) / 8) :
    ouaGroup .lsb W u j = u / 256 ^ ((W + 7) / 8 - 1 - j) % 256 := by
  simp only [ouaGroup, bitField]
  generalize hk : (W + 7) / 8 - 1 - j = k
  have hbase : 256 ^ k = 2 ^ (8 * k) := by rw [Nat.pow_mul]
  rw [hbase]
  obtain hfull | hcut : 8 * k + 7 ≤ W - 1 ∨ W - 1 < 8 * k + 7 := by omega
  · rw [min_eq_left hfull, show 8 * k + 7 - 8 * k + 1 = 8 by omega]
    rfl
  · have hlt : u / 2 ^ (8 * k) < 2 ^ (W - 8 * k) := by
      rw [Nat.div_lt_iff_lt_mul (Nat.two_pow_pos _), ← Nat.pow_add]
      exact hu.trans_le (Nat.pow_le_pow_right (by omega) (by omega))
    have hbyte : 2 ^ (W - 8 * k) ≤ 256 := Nat.pow_le_pow_right (n := 2) (by omega) (by omega : W - 8 * k ≤ 8)
    rw [min_eq_right hcut.le, show W - 1 - 8 * k + 1 = W - 8 * k by omega, Nat.mod_eq_of_lt hlt,
      Nat.mod_eq_of_lt (hlt.trans_le hbyte)]

/-- Under msb alignment the whole groups are cut from the top. -/
theorem ouaGroup_msb {W : Nat} (u : Nat) {j : Nat} (hj : j < W / 8) :
    ouaGroup .msb W u j = u / 2 ^ (W - 8 * (j + 1)) % 256 := by
  rw [ouaGroup, bitField, show W - 1 - 8 * j - (W - 8 * (j + 1)) + 1 = 8 by omega]
  rfl

/-- The group left over holds the low W mod 8 bits. -/
theorem ouaGroup_msb_last {W : Nat} (u : Nat) (hW : W % 8 ≠ 0) : ouaGroup .msb W u (W / 8) = u % 2 ^ (W % 8) := by
  rw [ouaGroup, bitField, show W - 8 * (W / 8 + 1) = 0 by omega, show W - 1 - 8 * (W / 8) - 0 + 1 = W % 8 by omega,
    pow_zero, Nat.div_one]

theorem ouaText_lsb {W u : Nat} (hu : u < 2 ^ W) :
    ouaText .lsb W u =
      ((List.range ((W + 7) / 8)).reverse.map (fun k => u / 256 ^ k % 256)).filter (· ≠ 0) := by
  have hreverse : (List.range ((W + 7) / 8)).reverse =
      (List.range ((W + 7) / 8)).map (fun j => (W + 7) / 8 - 1 - j) := by
    rw [List.range_eq_range', List.reverse_range', ← List.range_eq_range']
    simp
  rw [ouaText, hreverse, List.map_map]
  congr 1
  exact List.map_congr_left fun j hj => ouaGroup_lsb hu (List.mem_range.mp hj)

theorem ouaText_msb (W u : Nat) :
    ouaText .msb W u =
      ((List.range (W / 8)).map (fun j => u / 2 ^ (W - 8 * (j + 1)) % 256) ++ [u % 2 ^ (W % 8)]).filter (· ≠ 0) := by
  have hwhole : (List.range (W / 8)).map (ouaGroup .msb W u) =
      (List.range (W / 8)).map (fun j => u / 2 ^ (W - 8 * (j + 1)) % 256) :=
    List.map_congr_left fun j hj => ouaGroup_msb u (List.mem_range.mp hj)
  rw [ouaText]
  by_cases hW : W % 8 = 0
  · rw [show (W + 7) / 8 = W / 8 by omega, hwhole, hW]
    simp [Nat.mod_one]
  · rw [show (W + 7) / 8 = W / 8 + 1 by omega, List.range_succ, List.map_append, hwhole, List.map_singleton,
      ouaGroup_msb_last u hW]

/-- Settles O35: the text is the nonzero groups, and each alignment's groups are those of the word. -/
theorem ouaAppendsNonzeroGroups : Obligations.OuaAppendsNonzeroGroups := by
  refine ⟨catalogueOpcode .oua, fun s a hinv => ⟨_, exec_oua a s, fun halign => ?lsb, fun halign => ?msb⟩⟩
  case lsb => rw [halign, ouaText_lsb (hinv.dataFits.read_lt a)]
  case msb => rw [halign, ouaText_msb]

end Sys2Proof.Machine
end

section
/-! What an instruction can do, said once: it waits for the host, or it completes, and then it leaves most of the state
alone (40_step_engine.md R104 to R106). The statements about what instructions leave unchanged follow. -/

namespace Sys2Proof

/-- The instructions that reach the word at their address, used or not (30_encoding.md R81). -/
def Instr.addressed (i : Instr) : Bool :=
  i.mnemonic.any (fun m => decide (Machine.targetKind m = .addressed))

/-- The instructions that store to memory (20_memory.md R55): STA, and INP and INA with a nonzero address. -/
def Instr.stores : Instr → Bool
  | .sta _ => true
  | .inp a | .ina a => decide (a ≠ 0)
  | _ => false

end Sys2Proof

namespace Sys2Proof.Machine

/-! ### JMP and the words without an entry -/

theorem exec_jmp (a : Nat) (s : State) :
    exec (.jmp a) s = .next { s with pc := a, memLen := max s.memLen (a + 1) } :=
  congrArg Host.Outcome.next (State.branch_formOperand_of_addressed (m := .jmp) rfl s a true)

/-- Settles O27. -/
theorem jmpSetsPcToAddressField : Obligations.JmpSetsPcToAddressField :=
  ⟨catalogueOpcode .jmp, fun s a => exec_jmp a s⟩

/-- Settles O31: taking InvalidOpcode leaves Halted, so the step returns false. -/
theorem invalidOpcodeHaltsPrecisely : Obligations.InvalidOpcodeHaltsPrecisely := fun _ _ =>
  ⟨⟨_, rfl, fun hreq => State.stepResult_of_complete hreq, rfl⟩,
    ⟨_, rfl, fun hreq => State.stepResult_of_complete hreq, rfl⟩⟩

/-! ### Waiting and completing -/

theorem exec_inp_of_unanswered {s : State} (h : s.input.takeInteger = none) (a : Nat) :
    exec (.inp a) s = .next { s with request := some .integer } := by
  obtain ⟨-, hwait⟩ | ⟨n, p, hsome, -⟩ := execInp_cases a s
  · exact hwait
  · cases h.symm.trans hsome

theorem exec_ina_of_unanswered {s : State} (h : s.input.takeAscii s.cfg.wordWidth = none) (a : Nat) :
    exec (.ina a) s = .next { s with request := some .asciiString } := by
  obtain ⟨-, hwait⟩ | ⟨text, p, hsome, -⟩ := execIna_cases a s
  · exact hwait
  · cases h.symm.trans hsome

theorem canAnswer_integer_eq_false_iff (W : Nat) (p : Provider) :
    p.canAnswer W .integer = false ↔ p.takeInteger = none :=
  Option.isSome_eq_false_iff.trans Option.isNone_iff_eq_none

theorem canAnswer_asciiString_eq_false_iff (W : Nat) (p : Provider) :
    p.canAnswer W .asciiString = false ↔ p.takeAscii W = none :=
  Option.isSome_eq_false_iff.trans Option.isNone_iff_eq_none

/-- An input instruction the host has not answered leaves its request and nothing else. -/
structure Waits (i : Instr) (s t : State) (r : Request) : Prop where
  asks : i.asks = some r
  unanswered : s.input.canAnswer s.cfg.wordWidth r = false
  next : t = s.await r

/-- What a completed instruction leaves alone and how it changes the rest; PC is in `exec_completes`, ACC in the
instruction's own rule. A field that an instruction leaves alone holds by computing its next state. -/
structure Completes (i : Instr) (s t : State) : Prop where
  cfg : t.cfg = s.cfg := by rfl
  frequencyHz : t.frequencyHz = s.frequencyHz := by rfl
  memLen : t.memLen = if i.addressed then max s.memLen (i.address + 1) else s.memLen := by rfl
  mem : t.mem = s.mem ∨ i.stores = true ∧
    ∃ w, t.mem = Memory.write i.address w s.mem ∧ (s.DataFits → w < 2 ^ s.cfg.wordWidth) := by exact .inl rfl
  out : t.out = s.out ∨ ∃ text, t.out = s.out ++ [text] ∧ (i = .out i.address ∨ i = .oua i.address) := by
    exact .inl rfl
  reports : t.reports = s.reports ∨ i.halts = true ∧ ∃ op, t.reports = s.reports ++ [⟨s.pc, op⟩] := by
    exact .inl rfl
  status : s.stopPending = false → t.status = if i.halts then .halted else s.status := by exact fun _ => rfl
  request : t.request = if i.asks = none then s.request else none := by rfl
  stopPending : t.stopPending = if i.asks = none then s.stopPending else false := by rfl

/-- Where an answered INP or INA puts its word. -/
theorem storedInput_cases (a w : Nat) (m : Memory) :
    (if a = 0 then m else Memory.write a w m) = m ∨
      decide (a ≠ 0) = true ∧ (if a = 0 then m else Memory.write a w m) = Memory.write a w m := by
  by_cases ha : a = 0
  · exact .inl (if_pos ha)
  · exact .inr ⟨decide_eq_true ha, if_neg ha⟩

theorem exec_waits_or_completes {i : Instr} {s t : State} (h : exec i s = .next t) :
    (∃ r, Waits i s t r) ∨ Completes i s t := by
  cases i with
  | inp a =>
    cases hanswer : s.input.takeInteger with
    | none =>
      cases (exec_inp_of_unanswered hanswer a).symm.trans h
      exact .inl ⟨.integer, rfl, (canAnswer_integer_eq_false_iff _ _).mpr hanswer, rfl⟩
    | some answer =>
      cases (exec_inp_of_answered hanswer a).symm.trans h
      refine .inr { mem := ?_, status := fun hstop => by simp [hstop, Instr.halts] }
      refine (storedInput_cases a _ s.mem).imp_right (.imp_right fun hmem => ⟨_, hmem, fun hs => ?_⟩)
      exact toUnsigned_lt hs.width_pos (canonical_reduceToRange hs.width_pos _)
  | ina a =>
    cases hanswer : s.input.takeAscii s.cfg.wordWidth with
    | none =>
      cases (exec_ina_of_unanswered hanswer a).symm.trans h
      exact .inl ⟨.asciiString, rfl, (canAnswer_asciiString_eq_false_iff _ _).mpr hanswer, rfl⟩
    | some answer =>
      cases (exec_ina_of_answered hanswer a).symm.trans h
      refine .inr { mem := ?_, status := fun hstop => by simp [hstop, Instr.halts] }
      refine (storedInput_cases a _ s.mem).imp_right (.imp_right fun hmem => ⟨_, hmem, fun hs => ?_⟩)
      have hlt := packAscii_lt hs.width_pos (validAscii_of_takeAscii hanswer)
      exact hlt.trans_le (Nat.pow_le_pow_right (by omega) (by omega))
  | sta a =>
    cases (exec_sta a s).symm.trans h
    exact .inr { mem := .inr ⟨rfl, _, rfl, fun hs => toUnsigned_lt hs.width_pos hs.acc⟩ }
  | out a =>
    cases (exec_out a s).symm.trans h
    exact .inr { out := .inr ⟨_, rfl, .inl rfl⟩ }
  | oua a =>
    cases (exec_oua a s).symm.trans h
    exact .inr { out := .inr ⟨_, rfl, .inr rfl⟩ }
  | invalid30 a | invalid31 a =>
    cases h
    exact .inr { reports := .inr ⟨rfl, _, rfl⟩ }
  | jeq a =>
    cases (exec_jeq a s).symm.trans h
    exact .inr {}
  | jlt a =>
    cases (exec_jlt a s).symm.trans h
    exact .inr {}
  | hlt a | nop a | rol a | adds a | subs a | muls a | divs a | mods a | cmps a | ror a | not a =>
    cases h
    exact .inr {}
  | _ =>
    cases h
    exact .inr { memLen := State.touch_memLen _ _ }

theorem exec_of_unanswered {i : Instr} {r : Request} {s : State} (hasks : i.asks = some r)
    (h : s.input.canAnswer s.cfg.wordWidth r = false) : exec i s = .next (s.await r) := by
  cases i with
  | inp a =>
    cases hasks
    exact exec_inp_of_unanswered ((canAnswer_integer_eq_false_iff _ _).mp h) a
  | ina a =>
    cases hasks
    exact exec_ina_of_unanswered ((canAnswer_asciiString_eq_false_iff _ _).mp h) a
  | _ => cases hasks

theorem completes_of_asks_eq_none {i : Instr} {s t : State} (hi : i.asks = none) (h : exec i s = .next t) :
    Completes i s t := by
  obtain ⟨r, hwait⟩ | hdone := exec_waits_or_completes h
  · cases hi.symm.trans hwait.asks
  · exact hdone

theorem exists_exec_eq_next (i : Instr) (s : State) : ∃ t, exec i s = .next t := by
  cases i with
  | inp a =>
    cases hanswer : s.input.takeInteger with
    | none => exact ⟨_, exec_inp_of_unanswered hanswer a⟩
    | some answer => exact ⟨_, exec_inp_of_answered hanswer a⟩
  | ina a =>
    cases hanswer : s.input.takeAscii s.cfg.wordWidth with
    | none => exact ⟨_, exec_ina_of_unanswered hanswer a⟩
    | some answer => exact ⟨_, exec_ina_of_answered hanswer a⟩
  | _ => exact ⟨_, rfl⟩

/-! ### ACC, memory and the length -/

/-- Settles O49: the listed instructions aside, ACC is a destination only of INP and INA, at address 0. -/
theorem onlyListedInstructionsWriteAcc : Obligations.OnlyListedInstructionsWriteAcc := by
  intro s t i h
  cases i with
  | lda a | add a | sub a | mul a | div a | mod a | adds a | subs a | muls a | divs a | mods a | adb a | and a | or a
  | xor a | not a | shr a | shl a | ror a | cmp a | cmps a => trivial
  | inp a =>
    intro ha
    cases hanswer : s.input.takeInteger with
    | none =>
      cases (exec_inp_of_unanswered hanswer a).symm.trans h
      rfl
    | some answer =>
      cases (exec_inp_of_answered hanswer a).symm.trans h
      exact if_neg ha
  | ina a =>
    intro ha
    cases hanswer : s.input.takeAscii s.cfg.wordWidth with
    | none =>
      cases (exec_ina_of_unanswered hanswer a).symm.trans h
      rfl
    | some answer =>
      cases (exec_ina_of_answered hanswer a).symm.trans h
      exact if_neg ha
  | jeq a =>
    cases (exec_jeq a s).symm.trans h
    rfl
  | jlt a =>
    cases (exec_jlt a s).symm.trans h
    rfl
  | _ =>
    cases h
    rfl

theorem exec_mem_of_stores_eq_false {i : Instr} {s t : State} (hi : i.stores = false) (h : exec i s = .next t) :
    t.mem = s.mem := by
  obtain ⟨r, hwait⟩ | hdone := exec_waits_or_completes h
  · rw [hwait.next, State.await_mem]
  · exact hdone.mem.resolve_right fun ⟨hstores, _⟩ => Bool.false_ne_true (hi.symm.trans hstores)

theorem exec_read_of_ne_address {i : Instr} {s t : State} (h : exec i s = .next t) {b : Nat} (hb : b ≠ i.address) :
    Memory.read t.mem b = Memory.read s.mem b := by
  obtain ⟨r, hwait⟩ | hdone := exec_waits_or_completes h
  · rw [hwait.next, State.await_mem]
  · obtain hmem | ⟨-, w, hmem, -⟩ := hdone.mem
    · rw [hmem]
    · rw [hmem, Memory.read_write_other w s.mem hb]

/-- Settles O50: an instruction that stores does so at its address, and the others leave memory as it is. -/
theorem onlyStaInpInaWriteMemory : Obligations.OnlyStaInpInaWriteMemory := by
  intro s t i h
  cases i with
  | sta a => exact fun b hb => exec_read_of_ne_address h hb
  | inp a | ina a =>
    rintro b (hb | rfl)
    · exact exec_read_of_ne_address h hb
    · rw [exec_mem_of_stores_eq_false rfl h]
  | _ => exact exec_mem_of_stores_eq_false rfl h

/-- Settles O52: a completed instruction grows memory by its operand form; a waiting one changes only the request. -/
theorem operandAccessGrowsMemory : Obligations.OperandAccessGrowsMemory := by
  intro s t i h
  cases i with
  | inp a | ina a =>
    obtain ⟨r, hwait⟩ | hdone := exec_waits_or_completes h
    · rw [hwait.next]
      exact ⟨fun hreq => absurd hreq (Option.some_ne_none r), fun _ => rfl⟩
    · exact ⟨fun _ => hdone.memLen, fun hreq => absurd hdone.request hreq⟩
  | _ => exact (completes_of_asks_eq_none rfl h).memLen

/-- The length of memory is written and never read: two runs of an instruction that differ in it leave states that
differ in it alone (10_state.md R27). -/
theorem exec_memLen_unobserved (i : Instr) (s : State) (n : Nat) :
    ∃ (t : State) (m : Nat), exec i s = .next t ∧ exec i { s with memLen := n } = .next { t with memLen := m } := by
  cases i with
  | jeq a => exact ⟨_, _, exec_jeq a s, exec_jeq a _⟩
  | jlt a => exact ⟨_, _, exec_jlt a s, exec_jlt a _⟩
  | inp a =>
    cases hanswer : s.input.takeInteger with
    | none =>
      exact ⟨_, n, exec_inp_of_unanswered hanswer a, exec_inp_of_unanswered (s := { s with memLen := n }) hanswer a⟩
    | some answer =>
      exact ⟨_, _, exec_inp_of_answered hanswer a, exec_inp_of_answered (s := { s with memLen := n }) hanswer a⟩
  | ina a =>
    cases hanswer : s.input.takeAscii s.cfg.wordWidth with
    | none =>
      exact ⟨_, n, exec_ina_of_unanswered hanswer a, exec_ina_of_unanswered (s := { s with memLen := n }) hanswer a⟩
    | some answer =>
      exact ⟨_, _, exec_ina_of_answered hanswer a, exec_ina_of_answered (s := { s with memLen := n }) hanswer a⟩
  | _ => exact ⟨_, _, rfl, rfl⟩

end Sys2Proof.Machine
end

section
/-! What a step can do, said once (40_step_engine.md R107), and what it leaves unchanged. -/

namespace Sys2Proof.Machine

/-! ### The instruction at PC -/

theorem State.current_eq_some_iff (s : State) (i : Instr) :
    s.current = some i ↔ decode s.cfg (Memory.read s.mem s.pc) = .ok i := by
  rw [State.current, State.fetch_fst]
  cases decode s.cfg (Memory.read s.mem s.pc) <;> simp [Except.toOption]

theorem State.address_lt_of_current {s : State} {i : Instr} (h : s.current = some i) :
    i.address < 2 ^ s.cfg.addressWidth := by
  rw [address_of_decode ((s.current_eq_some_iff i).mp h)]
  exact addressField_lt _ _

/-- The state an instruction runs on: no request made yet, memory grown by the fetch. -/
theorem State.begun_fetch_snd (s : State) :
    s.begun.fetch.2 = { s with request := none, memLen := max s.memLen (s.pc + 1) } :=
  State.touch_eq s.begun s.pc

/-! ### A step -/

theorem step_of_halted {s : State} (hs : s.status = .halted) : step s = .next s := by
  simp only [step, hs]

theorem step_of_decode {s : State} {i : Instr} {t : State} (hs : s.status ≠ .halted)
    (hd : decode s.cfg (Memory.read s.mem s.pc) = .ok i) (ht : exec i s.begun.fetch.2 = .next t) :
    step s = .next (s.settle t) := by
  obtain ⟨hhalted, -⟩ | ⟨-, j, hj, hstep⟩ | ⟨-, op, herr, -⟩ := step_cases s
  · exact absurd hhalted hs
  · cases hd.symm.trans hj
    exact hstep t ht
  · cases hd.symm.trans herr

theorem step_of_decode_error {s : State} {op : Nat} (hs : s.status ≠ .halted)
    (hd : decode s.cfg (Memory.read s.mem s.pc) = .error (.invalidOpcode op)) :
    step s = .next (s.begun.fetch.2.takeInvalidOpcode op) := by
  obtain ⟨hhalted, -⟩ | ⟨-, j, hj, -⟩ | ⟨-, op', herr, hstep⟩ := step_cases s
  · exact absurd hhalted hs
  · cases hd.symm.trans hj
  · cases hd.symm.trans herr
    exact hstep

/-- The four ways a step ends. -/
inductive StepOutcome (s t : State) : Prop where
  /-- In Halted nothing happens (R121). -/
  | halted (hs : s.status = .halted) (ht : t = s)
  /-- The instruction waits on the host (44_io.md R211). -/
  | waited (i : Instr) (r : Request) (hs : s.status ≠ .halted) (hi : s.current = some i) (hwait : Waits i s t r)
  /-- The instruction is complete. -/
  | completed (i : Instr) (hs : s.status ≠ .halted) (hi : s.current = some i)
    (hexec : exec i s.begun.fetch.2 = .next t) (hdone : Completes i s.begun.fetch.2 t)
  /-- The word at PC has no meaning, and InvalidOpcode is taken (R102). -/
  | invalid (op : Nat) (hs : s.status ≠ .halted) (hi : s.current = none)
    (ht : t = s.begun.fetch.2.takeInvalidOpcode op)

theorem Completes.request_eq_none {i : Instr} {s t : State} (h : Completes i s t) (hs : s.request = none) :
    t.request = none := by
  rw [h.request, hs, ite_self]

theorem step_outcome {s t : State} (h : step s = .next t) : StepOutcome s t := by
  by_cases hs : s.status = .halted
  · cases (step_of_halted hs).symm.trans h
    exact .halted hs rfl
  cases hd : decode s.cfg (Memory.read s.mem s.pc) with
  | ok i =>
    have hi := (s.current_eq_some_iff i).mpr hd
    obtain ⟨u, hu⟩ := exists_exec_eq_next i s.begun.fetch.2
    cases (step_of_decode hs hd hu).symm.trans h
    obtain ⟨r, hwait⟩ | hdone := exec_waits_or_completes hu
    · have hreq : u.request = some r := by rw [hwait.next, State.await_request]
      exact .waited i r hs hi ⟨hwait.asks, hwait.unanswered, s.settle_of_waiting hreq⟩
    · have hreq : u.request = none := hdone.request_eq_none rfl
      rw [s.settle_of_complete hreq]
      exact .completed i hs hi hu hdone
  | error e =>
    obtain ⟨op⟩ := e
    have hi : s.current = none := by rw [State.current, State.fetch_fst, hd]; rfl
    cases (step_of_decode_error hs hd).symm.trans h
    exact .invalid op hs hi rfl

/-- Settles O43: a decoded instruction answers a next state, and InvalidOpcode is one. -/
theorem stepAlwaysAnswersNextState : Obligations.StepAlwaysAnswersNextState := by
  intro s
  obtain ⟨-, hstep⟩ | ⟨-, i, -, hstep⟩ | ⟨-, op, -, hstep⟩ := step_cases s
  · exact ⟨s, hstep⟩
  · obtain ⟨t, ht⟩ := exists_exec_eq_next i s.begun.fetch.2
    exact ⟨_, hstep t ht⟩
  · exact ⟨_, hstep⟩

/-- Settles O42: the step settles what the instruction leaves, and one that asks nothing leaves no request. -/
theorem stepRunsDecodedInstruction : Obligations.StepRunsDecodedInstruction := by
  refine fun s i => ⟨fun hs hd => ?_, step_of_halted⟩
  obtain ⟨t, ht⟩ := exists_exec_eq_next i s.begun.fetch.2
  have hstep := step_of_decode hs hd ht
  rw [← s.begun_fetch_snd, ht]
  refine ⟨⟨t, rfl, by rw [hstep, s.settle_eq]⟩, fun hasks => ?_⟩
  rw [hstep, s.settle_of_complete ((completes_of_asks_eq_none hasks ht).request_eq_none rfl)]

/-! ### What no step changes or reads -/

/-- Settles O51: only a completed OUT or OUA appends, one text. -/
theorem outputOnlyAppendedByOutAndOua : Obligations.OutputOnlyAppendedByOutAndOua := by
  intro s t h
  cases step_outcome h with
  | halted _ ht => exact .inl (by rw [ht])
  | waited i r _ _ hwait => exact .inl (by rw [hwait.next, State.await_out])
  | completed i _ hi _ hdone =>
    refine hdone.out.imp_right fun ⟨text, hout, hprint⟩ => ⟨text, i.address, hout, ?_⟩
    exact hprint.imp (fun hout => hi.trans (congrArg some hout)) (fun houa => hi.trans (congrArg some houa))
  | invalid op _ _ ht => exact .inl (by rw [ht]; rfl)

/-- Settles O55: a report comes only with InvalidOpcode, which halts. -/
theorem stepKeepsConfiguration : Obligations.StepKeepsConfiguration := by
  intro s t h
  cases step_outcome h with
  | halted _ ht => exact ⟨by rw [ht], by rw [ht], .inl (by rw [ht])⟩
  | waited i r _ _ hwait => rw [hwait.next]; exact ⟨rfl, rfl, .inl rfl⟩
  | completed i _ _ hexec hdone =>
    refine ⟨hdone.cfg, hdone.frequencyHz, hdone.reports.imp_right fun ⟨hhalts, op, hreports⟩ => ?_⟩
    obtain ⟨-, hstatus⟩ := exec_completes hexec (hdone.request_eq_none rfl)
    exact ⟨_, hreports, rfl, hstatus.mpr (.inl hhalts)⟩
  | invalid op _ _ ht => rw [ht]; exact ⟨rfl, rfl, .inr ⟨_, rfl, rfl, rfl⟩⟩

theorem pcAfter_cases (s : State) (i : Instr) :
    i.pcAfter s = s.pc ∨ i.pcAfter s = s.pc + 1 ∨ i.pcAfter s = i.address := by
  cases i with
  | hlt a | invalid30 a | invalid31 a => exact .inl rfl
  | jmp a => exact .inr (.inr rfl)
  | jeq a | jlt a =>
    rw [Instr.pcAfter]
    split
    · exact .inr (.inr rfl)
    · exact .inr (.inl rfl)
  | _ => exact .inr (.inl rfl)

/-- Settles O54: an instruction jumps to, stores to and reaches its own address only, which is an address field. -/
theorem addressesStayInAddressField : Obligations.AddressesStayInAddressField := by
  intro s t _ h
  cases step_outcome h with
  | halted _ ht => rw [ht]; exact ⟨.inl rfl, fun _ _ => rfl, le_max_left _ _⟩
  | waited i r _ _ hwait => rw [hwait.next]; exact ⟨.inl rfl, fun _ _ => rfl, le_max_left _ _⟩
  | invalid op _ _ ht =>
    rw [ht]
    refine ⟨.inl rfl, fun _ _ => rfl, ?_⟩
    rw [State.takeInvalidOpcode_memLen, State.begun_fetch_snd]
    exact max_le_max_left _ (le_max_left _ _)
  | completed i _ hi hexec hdone =>
    have ha := State.address_lt_of_current hi
    rw [Config.addressWidth] at ha
    obtain ⟨hpc, -⟩ := exec_completes hexec (hdone.request_eq_none rfl)
    refine ⟨?pc, fun b hb => exec_read_of_ne_address hexec (by omega), ?memLen⟩
    case pc =>
      rw [hpc]
      exact (pcAfter_cases _ i).imp_right (.imp_right fun hjump => hjump.trans_lt ha)
    case memLen =>
      rw [hdone.memLen, State.begun_fetch_snd]
      split <;> simp only <;> omega

/-- Settles O53: neither the fetch nor the instruction reads the length. -/
theorem memoryLengthIsUnobservable : Obligations.MemoryLengthIsUnobservable := by
  intro s n
  by_cases hs : s.status = .halted
  · exact ⟨s, n, step_of_halted hs, step_of_halted (s := { s with memLen := n }) hs⟩
  have hbegun : ({ s with memLen := n } : State).begun.fetch.2 =
      { s.begun.fetch.2 with memLen := max n (s.pc + 1) } := by
    rw [State.begun_fetch_snd, State.begun_fetch_snd]
  cases hd : decode s.cfg (Memory.read s.mem s.pc) with
  | ok i =>
    obtain ⟨t, m, ht, htm⟩ := exec_memLen_unobserved i s.begun.fetch.2 (max n (s.pc + 1))
    have hstep := step_of_decode hs hd ht
    have hstepn := step_of_decode (s := { s with memLen := n }) hs hd (hbegun ▸ htm)
    cases hreq : t.request with
    | none =>
      rw [s.settle_of_complete hreq] at hstep
      exact ⟨t, m, hstep, hstepn.trans (congrArg Host.Outcome.next (State.settle_of_complete _ hreq))⟩
    | some r =>
      rw [s.settle_of_waiting hreq] at hstep
      exact ⟨s.await r, n, hstep, hstepn.trans (congrArg Host.Outcome.next (State.settle_of_waiting _ hreq))⟩
  | error e =>
    obtain ⟨op⟩ := e
    refine ⟨_, max n (s.pc + 1), step_of_decode_error hs hd, ?_⟩
    rw [step_of_decode_error (s := { s with memLen := n }) hs hd, hbegun]
    rfl

end Sys2Proof.Machine
end

section
/-! The machine's invariant (10_state.md R23, R26, R34; 40_step_engine.md R108, R125): values fit through every
instruction, and a step from a state the host may have just answered in leaves a state that meets the invariant. -/

namespace Sys2Proof.Machine

/-! ### Values fit -/

theorem canonical_truth {W : Nat} (hW : 8 ≤ W) (b : Bool) : canonical W (truth b) := by
  have hM : 2 ^ 1 ≤ 2 ^ (W - 1) := Nat.pow_le_pow_right (by omega) (by omega)
  cases b
  · exact canonical_zero W
  · exact ⟨by simp only [truth]; omega, by simp only [truth]; omega⟩

theorem canonical_addressField {cfg : Config} (h : cfg.legal) {a : Nat} (ha : a < 2 ^ cfg.addressWidth) :
    canonical cfg.wordWidth a := by
  rw [← toInt_ofNat_addressField h ha]
  exact canonical_toInt h.one_le_wordWidth _

/-- Every instruction leaves ACC in the canonical range (10_state.md R23). -/
theorem exec_keeps_canonical {s t : State} {i : Instr} (h : s.DataFits) (ha : i.address < 2 ^ s.cfg.addressWidth)
    (hexec : exec i s = .next t) : canonical s.cfg.wordWidth t.acc := by
  have hW := h.width_pos
  have h8 : 8 ≤ s.cfg.wordWidth := h.legal.eight_le_wordWidth
  cases i with
  | lda a => cases (h.exec_lda a).symm.trans hexec; exact canonical_toInt hW _
  | adb a => cases (h.exec_adb a).symm.trans hexec; exact canonical_toInt hW _
  | and a => cases (h.exec_and a).symm.trans hexec; exact canonical_toInt hW _
  | or a => cases (h.exec_or a).symm.trans hexec; exact canonical_toInt hW _
  | xor a => cases (h.exec_xor a).symm.trans hexec; exact canonical_toInt hW _
  | not a => cases (h.exec_not a).symm.trans hexec; exact canonical_toInt hW _
  | shr k => cases (h.exec_shr k).symm.trans hexec; exact canonical_toInt hW _
  | shl k => cases (h.exec_shl k).symm.trans hexec; exact canonical_toInt hW _
  | ror k => cases (h.exec_ror k).symm.trans hexec; exact canonical_toInt hW _
  | add a | sub a | mul a | adds a | subs a | muls a =>
    cases hexec
    exact canonical_reduceToRange hW _
  | div a => cases hexec; exact canonical_divValue hW _ _ _
  | divs a => cases hexec; exact canonical_divImmValue h8 _ h.acc a
  | mod a => cases hexec; exact canonical_modValue _ h.acc (canonical_toSigned hW (h.read_lt a))
  | mods a => cases hexec; exact canonical_modValue _ h.acc (canonical_addressField h.legal ha)
  | cmp a | cmps a => cases hexec; exact canonical_truth h8 _
  | inp a =>
    cases hanswer : s.input.takeInteger with
    | none => cases (exec_inp_of_unanswered hanswer a).symm.trans hexec; exact h.acc
    | some answer =>
      cases (exec_inp_of_answered hanswer a).symm.trans hexec
      simp only
      split
      · exact canonical_reduceToRange hW _
      · exact h.acc
  | ina a =>
    cases hanswer : s.input.takeAscii s.cfg.wordWidth with
    | none => cases (exec_ina_of_unanswered hanswer a).symm.trans hexec; exact h.acc
    | some answer =>
      cases (exec_ina_of_answered hanswer a).symm.trans hexec
      have hlt := packAscii_lt hW (validAscii_of_takeAscii hanswer)
      simp only
      split
      · exact canonical_toSigned hW (hlt.trans_le (Nat.pow_le_pow_right (by omega) (by omega)))
      · exact h.acc
  | sta a | out a | jmp a | jeq a | jlt a | oua a | hlt a | nop a | rol a | invalid30 a | invalid31 a =>
    have hacc : t.acc = s.acc := onlyListedInstructionsWriteAcc s t _ hexec
    rw [hacc]
    exact h.acc

theorem Instr.addressed_of_stores {i : Instr} (h : i.stores = true) : i.addressed = true := by
  cases i with
  | sta a | inp a | ina a => rfl
  | _ => cases h

theorem Completes.memLen_le {i : Instr} {s t : State} (h : Completes i s t) : s.memLen ≤ t.memLen := by
  rw [h.memLen]
  split
  · exact le_max_left _ _
  · exact le_rfl

theorem Completes.words {i : Instr} {s t : State} (h : Completes i s t) (hs : s.DataFits) : t.wordsFit := by
  intro c hc
  rw [h.cfg]
  have hold : ∀ c ∈ s.mem, c.2 < 2 ^ s.cfg.wordWidth ∧ c.1 < t.memLen :=
    fun c hc => (hs.words c hc).imp_right fun hlt => hlt.trans_le h.memLen_le
  obtain hmem | ⟨hstores, w, hmem, hw⟩ := h.mem
  · exact hold c (hmem ▸ hc)
  · obtain ⟨rfl, -⟩ | hc := Memory.mem_write (hmem ▸ hc)
    · refine ⟨hw hs, ?_⟩
      rw [h.memLen, if_pos (Instr.addressed_of_stores hstores)]
      exact Nat.lt_of_lt_of_le (Nat.lt_succ_self _) (le_max_right _ _)
    · exact hold c hc

theorem Completes.memWf {i : Instr} {s t : State} (h : Completes i s t) (hs : s.mem.wf) : t.mem.wf := by
  obtain hmem | ⟨-, w, hmem, -⟩ := h.mem
  · rwa [hmem]
  · rw [hmem]
    exact Memory.write_wf _ _ hs

theorem State.DataFits.begun_fetch {s : State} (h : s.DataFits) : s.begun.fetch.2.DataFits := by
  rw [State.begun_fetch_snd]
  exact ⟨h.legal, h.acc, fun c hc => (h.words c hc).imp_right fun hlt => hlt.trans_le (le_max_left _ _)⟩

/-- Under a legal configuration every word in memory has a meaning. -/
theorem State.DataFits.exists_current {s : State} (h : s.DataFits) : ∃ i, s.current = some i := by
  obtain ⟨i, hi, -⟩ := encodeOfDecodeIsIdentity s.cfg _ h.legal (h.read_lt s.pc)
  exact ⟨i, (s.current_eq_some_iff i).mpr hi⟩

/-! ### The invariant -/

/-- The invariant but for the clause that the host has not answered: what holds just after an answer, before the step it
completes has run (40_step_engine.md R108). -/
structure State.Resumable (s : State) : Prop extends s.DataFits where
  memWf : s.mem.wf
  memLen : 16 ≤ s.memLen
  frequency : 0 < s.frequencyHz.num
  asked : s.request = none ∨ (s.request = s.current.bind Instr.asks ∧ s.status ≠ .halted)
  stop : s.stopFits

theorem State.Inv.resumable {s : State} (h : s.Inv) : s.Resumable := by
  obtain ⟨hlegal, hacc, hwf, hwords, hlen, hfreq, hreq, hstop⟩ := h
  exact ⟨⟨hlegal, hacc, hwords⟩, hwf, hlen, hfreq, hreq.imp_right fun ⟨hcur, hs, _⟩ => ⟨hcur, hs⟩, hstop⟩

theorem State.Resumable.inv {s : State} (h : s.Resumable) (hreq : s.requestFits) : s.Inv :=
  ⟨h.legal, h.acc, h.memWf, h.words, h.memLen, h.frequency, hreq, h.stop⟩

/-- A step that asks nothing began with no request in progress. -/
theorem State.Resumable.request_eq_none {s : State} (h : s.Resumable) {i : Instr} (hi : s.current = some i)
    (hasks : i.asks = none) : s.request = none := by
  obtain hreq | ⟨hreq, -⟩ := h.asked
  · exact hreq
  · rw [hreq, hi, Option.bind_some, hasks]

theorem State.Resumable.stopPending_eq_false {s : State} (h : s.Resumable) (hreq : s.request = none) :
    s.stopPending = false := by
  by_contra hstop
  obtain ⟨hasked, -⟩ := h.stop (by simpa using hstop)
  exact hasked hreq

/-- Every step leads from a resumable state to one that meets the invariant: what the instruction asks for it either has
been answered, and then it is complete, or waits for. -/
theorem State.Resumable.step_inv {s t : State} (h : s.Resumable) (hstep : step s = .next t) : t.Inv := by
  cases step_outcome hstep with
  | halted hs ht =>
    subst ht
    exact h.inv (.inl (h.asked.resolve_right fun ⟨_, hne⟩ => hne hs))
  | waited i r hs hi hwait =>
    obtain ⟨hasks, hunanswered, rfl⟩ := hwait
    refine ⟨h.legal, h.acc, h.memWf, h.words, h.memLen, h.frequency, .inr ⟨?_, hs, hunanswered⟩, fun hstop => ?_⟩
    · exact ((congrArg (Option.bind · Instr.asks) hi).trans hasks).symm
    · exact ⟨Option.some_ne_none r, (h.stop hstop).2⟩
  | completed i hs hi hexec hdone =>
    have hfits := h.toDataFits.begun_fetch
    have hacc := exec_keeps_canonical hfits (State.address_lt_of_current hi) hexec
    have hreq := hdone.request_eq_none rfl
    have hstop : t.stopPending = false := by
      rw [hdone.stopPending]
      split
      case isTrue hasks => exact h.stopPending_eq_false (h.request_eq_none hi hasks)
      case isFalse => rfl
    have hcfg : t.cfg = s.cfg := hdone.cfg
    refine ⟨hcfg ▸ h.legal, hcfg ▸ hacc, hdone.memWf h.memWf, hdone.words hfits, ?_, hdone.frequencyHz ▸ h.frequency,
      .inl hreq, fun htrue => absurd (hstop.symm.trans htrue) Bool.false_ne_true⟩
    exact (h.memLen.trans (by rw [State.begun_fetch_snd]; exact le_max_left _ _)).trans hdone.memLen_le
  | invalid op _ hi _ =>
    obtain ⟨i, hsome⟩ := h.toDataFits.exists_current
    cases hi.symm.trans hsome

/-- Settles O44: a state that meets the invariant is resumable. -/
theorem stepKeepsInvariant : Obligations.StepKeepsInvariant := fun _ _ hinv hstep =>
  hinv.resumable.step_inv hstep

/-! ### Where the invariant begins -/

/-- A state without a request and a held-back stop meets the two clauses on a waiting step. -/
theorem State.DataFits.inv_of_no_request {s : State} (h : s.DataFits) (hwf : s.mem.wf) (hlen : 16 ≤ s.memLen)
    (hfreq : 0 < s.frequencyHz.num) (hreq : s.request = none) (hstop : s.stopPending = false) : s.Inv :=
  ⟨h.legal, h.acc, hwf, h.words, hlen, hfreq, .inl hreq, fun htrue => by cases hstop.symm.trans htrue⟩

theorem powerOn_inv {cfg : Config} (h : cfg.legal) : (State.powerOn cfg).Inv :=
  State.DataFits.inv_of_no_request ⟨h, canonical_zero _, by simp [State.powerOn]⟩ State.reset_mem_wf le_rfl
    (by simp [State.powerOn]) rfl rfl

/-- Settles O45. -/
theorem powerOnMeetsInvariant : Obligations.PowerOnMeetsInvariant :=
  ⟨fun _ h => powerOn_inv h, powerOn_inv (Config.legal_standard (by decide) (by decide) .five)⟩

theorem State.Inv.hostReset {s : State} (h : s.Inv) : s.hostReset.Inv := by
  obtain ⟨⟨hlegal, -, hwords⟩, hwf, hlen, hfreq, -, -⟩ := h.resumable
  exact State.DataFits.inv_of_no_request ⟨hlegal, canonical_zero _, hwords⟩ hwf hlen hfreq rfl rfl

theorem State.Inv.new {s : State} (h : s.Inv) : s.new.Inv := by
  obtain ⟨⟨hlegal, -, -⟩, -, -, hfreq, -, -⟩ := h.resumable
  exact State.DataFits.inv_of_no_request ⟨hlegal, canonical_zero _, by simp⟩ State.reset_mem_wf le_rfl hfreq rfl rfl

/-- Settles O46: the fields are the model's own, and neither operation leaves a request. -/
theorem initialisingOperationsSetState : Obligations.InitialisingOperationsSetState :=
  ⟨fun _ _ => ⟨rfl, rfl, rfl, rfl, rfl, rfl⟩, fun _ => ⟨rfl, rfl, fun h => ⟨h.hostReset, h.new⟩⟩⟩

end Sys2Proof.Machine
end

section
/-! Steps that return false, and stores into the code (40_step_engine.md R122, 60_exceptions.md R263, 20_memory.md
R64). -/

namespace Sys2Proof.Machine

theorem Instr.halts_iff (i : Instr) :
    i.halts = true ↔ ∃ a, i = .hlt a ∨ i = .invalid30 a ∨ i = .invalid31 a := by
  cases i <;> simp [Instr.halts]

theorem Instr.asks_eq_none_of_halts {i : Instr} (h : i.halts = true) : i.asks = none := by
  cases i with
  | hlt a | invalid30 a | invalid31 a => rfl
  | _ => cases h

theorem State.stepResult_of_waiting {t : State} {r : Request} (h : t.request = some r) : t.stepResult = none := by
  simp [State.stepResult, h]

/-- What a halting instruction leaves (R263): the status, and the report of an invalid word. -/
theorem exec_of_halts {i : Instr} {s t : State} (hi : i.halts = true) (h : exec i s = .next t) :
    t = { s with status := .halted, reports := t.reports } := by
  cases i with
  | hlt a | invalid30 a | invalid31 a => cases h; rfl
  | _ => cases hi

/-- A step returns false exactly where the instruction at PC halts. -/
theorem State.Resumable.stepResult_eq_false_iff {s t : State} (h : s.Resumable) (hs : s.status ≠ .halted)
    (hstep : step s = .next t) : t.stepResult = some false ↔ ∃ i, s.current = some i ∧ i.halts = true := by
  cases step_outcome hstep with
  | halted hhalted _ => exact absurd hhalted hs
  | waited i r _ hi hwait =>
    rw [State.stepResult_of_waiting (r := r) (by rw [hwait.next, State.await_request])]
    refine iff_of_false (by simp) ?_
    rintro ⟨j, hj, hhalts⟩
    cases hi.symm.trans hj
    cases (Instr.asks_eq_none_of_halts hhalts).symm.trans hwait.asks
  | completed i _ hi hexec hdone =>
    have hreq := hdone.request_eq_none rfl
    obtain ⟨-, hstatus⟩ := exec_completes hexec hreq
    simp [State.stepResult_of_complete hreq, hstatus, hs, hi]
  | invalid op _ hi _ =>
    obtain ⟨i, hsome⟩ := h.toDataFits.exists_current
    cases hi.symm.trans hsome

theorem State.Resumable.step_of_current_halts {s t : State} {i : Instr} (h : s.Resumable) (hs : s.status ≠ .halted)
    (hi : s.current = some i) (hhalts : i.halts = true) (hstep : step s = .next t) :
    t = { s with status := .halted, memLen := t.memLen, reports := t.reports } := by
  have hasks := Instr.asks_eq_none_of_halts hhalts
  cases step_outcome hstep with
  | halted hhalted _ => exact absurd hhalted hs
  | waited j r _ hj hwait =>
    cases hi.symm.trans hj
    cases hasks.symm.trans hwait.asks
  | completed j _ hj hexec _ =>
    cases hi.symm.trans hj
    have ht := exec_of_halts hhalts hexec
    rw [State.begun_fetch_snd, ← h.request_eq_none hi hasks] at ht
    rw [congrArg State.memLen ht]
    exact ht
  | invalid op _ hj _ => cases hi.symm.trans hj

theorem State.exists_current_halts_iff (s : State) :
    (∃ i, s.current = some i ∧ i.halts = true) ↔
      ∃ a, s.current = some (.hlt a) ∨ s.current = some (.invalid30 a) ∨ s.current = some (.invalid31 a) := by
  constructor
  · rintro ⟨i, hi, hhalts⟩
    obtain ⟨a, rfl | rfl | rfl⟩ := (Instr.halts_iff i).mp hhalts <;> exact ⟨a, by simp [hi]⟩
  · rintro ⟨a, hi | hi | hi⟩ <;> exact ⟨_, hi, rfl⟩

/-- Settles O48: the halting instructions are HLT and the two words without an entry, and they write nothing else. -/
theorem stepReturnsFalseOnlyOnHltAndInvalid : Obligations.StepReturnsFalseOnlyOnHltAndInvalid := by
  intro s t hinv hs hstep
  have hiff := hinv.resumable.stepResult_eq_false_iff hs hstep
  refine ⟨hiff.trans s.exists_current_halts_iff, fun hfalse => ?_⟩
  obtain ⟨i, hi, hhalts⟩ := hiff.mp hfalse
  exact hinv.resumable.step_of_current_halts hs hi hhalts hstep

/-- A step from a state with no request begins as that state is, but for the length. -/
theorem exists_step_of_no_request {s : State} {i : Instr} (hs : s.status ≠ .halted) (hreq : s.request = none)
    (hd : decode s.cfg (Memory.read s.mem s.pc) = .ok i) :
    ∃ u, exec i { s with memLen := max s.memLen (s.pc + 1) } = .next u ∧
      step s = .next (if u.request = none then u else { s with request := u.request }) := by
  have hbegun : { s with memLen := max s.memLen (s.pc + 1) } =
      ({ s with request := none, memLen := max s.memLen (s.pc + 1) } : State) := by rw [← hreq]
  rw [hbegun]
  exact ((stepRunsDecodedInstruction s i).1 hs hd).1

/-- Settles O56: the word STA wrote is read back at the PC it left, and like every word it is an instruction. -/
theorem storeIsSeenByNextFetch : Obligations.StoreIsSeenByNextFetch := by
  intro s t hinv hs hdecode hstep
  have h := hinv.dataFits
  have hsta := step_of_decode hs hdecode (exec_sta (s.pc + 1) _)
  rw [State.settle_of_complete _ rfl] at hsta
  have ht := Host.Outcome.next.inj (hstep.symm.trans hsta)
  have hpc : t.pc = s.pc + 1 := by rw [ht]; rfl
  have hcfg : t.cfg = s.cfg := by rw [ht]; rfl
  have hword : Memory.read t.mem t.pc = s.accVec.toNat := by
    rw [hpc, h.accVec_toNat, ht]
    exact Memory.read_write_same _ _ _
  obtain ⟨i, hi, -⟩ := encodeOfDecodeIsIdentity s.cfg s.accVec.toNat h.legal s.accVec.isLt
  obtain ⟨u, hexec, hnext⟩ := exists_step_of_no_request (s := t) (i := i) (by rw [ht]; exact hs) (by rw [ht]; rfl)
    (by rw [hcfg, hword, hi])
  exact ⟨hpc, hword, i, u, hi, hexec, hnext⟩

end Sys2Proof.Machine
end

section
/-! Requests and answers (44_io.md R211, R212; 40_step_engine.md R108, R125): a waiting step, and the answer that
completes it. -/

namespace Sys2Proof.Machine

/-! ### A request in progress -/

theorem Instr.eq_inp_of_asks {i : Instr} (h : i.asks = some .integer) : i = .inp i.address := by
  cases i with
  | inp a => rfl
  | _ => cases h

theorem Instr.eq_ina_of_asks {i : Instr} (h : i.asks = some .asciiString) : i = .ina i.address := by
  cases i with
  | ina a => rfl
  | _ => cases h

theorem State.Inv.waiting {s : State} (h : s.Inv) {r : Request} (hreq : s.request = some r) :
    s.status ≠ .halted ∧ s.input.canAnswer s.cfg.wordWidth r = false ∧ ∃ i, s.current = some i ∧ i.asks = some r := by
  obtain ⟨-, -, -, -, -, -, hnone | ⟨hasked, hs, hunanswered⟩, -⟩ := h
  · cases hreq.symm.trans hnone
  · rw [hreq] at hasked hunanswered
    obtain ⟨i, hi, hasks⟩ := Option.bind_eq_some_iff.mp hasked.symm
    exact ⟨hs, hunanswered, i, hi, hasks⟩

/-- The answer completes the suspended step: the instruction at PC runs, on the state the answer left (R108). -/
theorem step_of_answer {s : State} {i : Instr} {p : Provider} {t : State} (hs : s.status ≠ .halted)
    (hi : s.current = some i)
    (ht : exec i { s with input := p, request := none, memLen := max s.memLen (s.pc + 1) } = .next t)
    (hreq : t.request = none) : step { s with input := p } = .next t := by
  have hbegun := State.begun_fetch_snd { s with input := p }
  rw [step_of_decode (s := { s with input := p }) hs ((s.current_eq_some_iff i).mp hi) (hbegun ▸ ht),
    State.settle_of_complete _ hreq]

/-- An answered INP, from the suspended step (44_io.md R202, R211). -/
theorem State.Inv.answerInteger {s : State} (h : s.Inv) (hreq : s.request = some .integer) (v : Int) :
    ∃ a texts, s.current = some (.inp a) ∧ s.input = .interactive [] texts ∧ s.answerInteger v = .next { s with
      acc := if a = 0 then reduceToRange s.cfg.wordWidth v else s.acc
      mem := if a = 0 then s.mem
        else Memory.write a (toUnsigned s.cfg.wordWidth (reduceToRange s.cfg.wordWidth v)) s.mem
      memLen := max (max s.memLen (s.pc + 1)) (a + 1)
      status := if s.stopPending && decide (s.status = .running) then .idle else s.status
      pc := s.pc + 1, input := .interactive [] texts, request := none, stopPending := false } := by
  obtain ⟨hs, hunanswered, i, hi, hasks⟩ := h.waiting hreq
  rw [Instr.eq_inp_of_asks hasks] at hi
  have hnone : s.input.takeInteger = none :=
    (canAnswer_integer_eq_false_iff _ _).mp hunanswered
  obtain ⟨texts, hinput⟩ := (Provider.takeInteger_eq_none_iff _).mp hnone
  refine ⟨i.address, texts, hi, hinput, ?_⟩
  rw [State.answerInteger_of_asked v hreq hinput]
  exact step_of_answer hs hi (exec_inp_of_answered (n := v) (p := .interactive [] texts) rfl _) rfl

/-- A valid string behind invalid ones is the next answer, and none is left after it (R212). -/
theorem takeAscii_append_of_valid {W : Nat} (ns : List Int) {texts : List Text} {text : Text}
    (hinvalid : ∀ t ∈ texts, validAscii W t = false) (hvalid : validAscii W text = true) :
    Provider.takeAscii W (.interactive ns (texts ++ [text])) = some (text, .interactive ns []) := by
  have hdrop : (texts ++ [text]).dropWhile (fun t => !validAscii W t) = [text] := by
    rw [List.dropWhile_append_of_pos (fun t ht => by simp [hinvalid t ht]),
      List.dropWhile_cons_of_neg (by simp [hvalid])]
  simp only [Provider.takeAscii, hdrop]

/-- An answered INA, from the suspended step (44_io.md R203, R212). -/
theorem State.Inv.answerAscii {s : State} (h : s.Inv) (hreq : s.request = some .asciiString) {text : Text}
    (hvalid : validAscii s.cfg.wordWidth text = true) :
    ∃ a ns, s.current = some (.ina a) ∧ s.answerAscii text = .next { s with
      acc := if a = 0 then toSigned s.cfg.wordWidth (packAscii text) else s.acc
      mem := if a = 0 then s.mem else Memory.write a (packAscii text) s.mem
      memLen := max (max s.memLen (s.pc + 1)) (a + 1)
      status := if s.stopPending && decide (s.status = .running) then .idle else s.status
      pc := s.pc + 1, input := .interactive ns [], request := none, stopPending := false } := by
  obtain ⟨hs, hunanswered, i, hi, hasks⟩ := h.waiting hreq
  rw [Instr.eq_ina_of_asks hasks] at hi
  have hnone : s.input.takeAscii s.cfg.wordWidth = none :=
    (canAnswer_asciiString_eq_false_iff _ _).mp hunanswered
  obtain ⟨ns, texts, hinput, hinvalid⟩ := (Provider.takeAscii_eq_none_iff _ _).mp hnone
  refine ⟨i.address, ns, hi, ?_⟩
  rw [State.answerAscii_of_asked hreq hinput hvalid]
  exact step_of_answer hs hi (exec_ina_of_answered (takeAscii_append_of_valid ns hinvalid hvalid) _) rfl

/-- Settles O41: a step that leaves a request has waited, and the answers run the suspended instruction. -/
theorem unansweredInputWaits : Obligations.UnansweredInputWaits := by
  refine ⟨fun s a => ⟨fun h => exec_inp_of_unanswered h a, fun h => exec_ina_of_unanswered h a⟩, ?waits, ?integer,
    ?string⟩
  case waits =>
    intro s t r hinv hstep hreq
    cases step_outcome hstep with
    | halted hs ht => exact absurd hs (hinv.waiting (ht ▸ hreq)).1
    | waited i r' _ hi hwait =>
      obtain ⟨hasks, -, rfl⟩ := hwait
      cases hreq
      exact ⟨rfl, State.stepResult_of_waiting rfl, by rw [hi, Option.bind_some, hasks]⟩
    | completed i _ _ _ hdone => cases (hdone.request_eq_none rfl).symm.trans hreq
    | invalid op _ _ ht => rw [ht] at hreq; cases hreq
  case integer =>
    intro s v hinv hreq
    obtain ⟨a, texts, hcur, hinput, hnext⟩ := hinv.answerInteger hreq v
    refine ⟨a, texts, _, hcur, hinput, hnext, rfl, rfl, rfl, fun ha => if_pos ha, fun ha => ?_⟩
    simp only [if_neg ha, Memory.read_write_same]
  case string =>
    refine fun s text hinv hreq => ⟨fun hvalid => ?_, State.answerAscii_of_invalid⟩
    obtain ⟨a, ns, hcur, hnext⟩ := hinv.answerAscii hreq hvalid
    refine ⟨a, ns, _, hcur, hnext, rfl, rfl, rfl, fun ha => ?_, fun ha => ?_⟩
    · simp only [if_pos ha, toSigned_packAscii hinv.dataFits.width_pos hvalid]
    · simp only [if_neg ha, Memory.read_write_same]

end Sys2Proof.Machine
end

section
/-! The host's operations and the run loop (40_step_engine.md section 2, R120 to R126). -/

namespace Sys2Proof.Machine

/-! ### run(), stop(), the provider and the answers keep the invariant -/

theorem State.run_of_idle {s : State} {f : Rat} (hf : 0 < f) (hs : s.status = .idle) :
    s.run f = { s with status := .running, frequencyHz := f } := by
  simp only [State.run, if_pos (Rat.num_pos.mpr hf), hs]

theorem State.run_of_running {s : State} {f : Rat} (hf : 0 < f) (hs : s.status = .running) :
    s.run f = { s with frequencyHz := f } := by
  simp only [State.run, if_pos (Rat.num_pos.mpr hf), hs]

theorem State.run_of_halted {s : State} {f : Rat} (hf : 0 < f) (hs : s.status = .halted) : s.run f = s := by
  simp only [State.run, if_pos (Rat.num_pos.mpr hf), hs]

theorem State.Inv.run {s : State} (h : s.Inv) {f : Rat} (hf : 0 < f) : (s.run f).Inv := by
  obtain ⟨hlegal, hacc, hwf, hwords, hlen, -, hreq, hstop⟩ := id h
  have hnum := Rat.num_pos.mpr hf
  cases hs : s.status with
  | idle =>
    rw [State.run_of_idle hf hs]
    exact ⟨hlegal, hacc, hwf, hwords, hlen, hnum, hreq.imp_right fun ⟨hcur, _, hun⟩ => ⟨hcur, by simp, hun⟩,
      fun htrue => ⟨(hstop htrue).1, rfl⟩⟩
  | running =>
    rw [State.run_of_running hf hs]
    exact ⟨hlegal, hacc, hwf, hwords, hlen, hnum, hreq, hstop⟩
  | halted => rwa [State.run_of_halted hf hs]

theorem State.Inv.stop {s : State} (h : s.Inv) : s.stop.Inv := by
  obtain ⟨hlegal, hacc, hwf, hwords, hlen, hfreq, hreq, hstop⟩ := id h
  by_cases hs : s.status = .running
  · cases hnone : s.request with
    | none =>
      rw [State.stop_of_running hs hnone]
      exact ⟨hlegal, hacc, hwf, hwords, hlen, hfreq, .inl hnone, fun htrue => absurd hnone (hstop htrue).1⟩
    | some r =>
      rw [State.stop_of_waiting hs hnone]
      exact ⟨hlegal, hacc, hwf, hwords, hlen, hfreq, hreq, fun _ => ⟨by simp [hnone], hs⟩⟩
  · rwa [State.stop_of_not_running hs]

theorem State.Resumable.with_input {s : State} (h : s.Resumable) (p : Provider) :
    State.Resumable { s with input := p } :=
  ⟨⟨h.legal, h.acc, h.words⟩, h.memWf, h.memLen, h.frequency, h.asked, h.stop⟩

theorem State.Inv.configureInput {s : State} (h : s.Inv) (p : Provider) : (s.configureInput p).Inv := by
  unfold State.configureInput
  split
  case h_1 hreq => exact (h.resumable.with_input p).inv (.inl hreq)
  case h_2 => exact h

theorem State.answerInteger_cases (s : State) (n : Int) :
    s.answerInteger n = .next s ∨ ∃ p, s.answerInteger n = step { s with input := p } := by
  unfold State.answerInteger
  split
  case h_1 => exact .inr ⟨_, rfl⟩
  all_goals exact .inl rfl

theorem State.answerAscii_cases (s : State) (text : Text) :
    s.answerAscii text = .next s ∨ ∃ p, s.answerAscii text = step { s with input := p } := by
  unfold State.answerAscii
  split
  case h_1 =>
    split
    · exact .inr ⟨_, rfl⟩
    · exact .inl rfl
  all_goals exact .inl rfl

/-- An answer that changes nothing keeps the invariant, and so does the step that any other answer completes. -/
theorem State.Inv.of_answer {s t : State} {o : Result State} (h : s.Inv)
    (hcases : o = .next s ∨ ∃ p, o = step { s with input := p }) (ho : o = .next t) : t.Inv := by
  obtain hnext | ⟨p, hstep⟩ := hcases
  · cases hnext.symm.trans ho
    exact h
  · exact (h.resumable.with_input p).step_inv (hstep.symm.trans ho)

/-- Settles O57: each operation in each status, and that the two clauses on a waiting step survive it. -/
theorem hostOperationsFollowStatusMachine : Obligations.HostOperationsFollowStatusMachine := by
  intro s f hf
  refine ⟨State.run_of_idle hf, State.run_of_running hf, State.run_of_halted hf, State.stop_of_running,
    State.stop_of_not_running, rfl, rfl, rfl, rfl, rfl, fun h => ⟨h.run hf, h.stop, h.configureInput, ?_, ?_⟩⟩
  · exact fun v _ ht => h.of_answer (s.answerInteger_cases v) ht
  · exact fun text _ ht => h.of_answer (s.answerAscii_cases text) ht

/-! ### stop() while a step waits on input -/

/-- A stop during a request is held back and changes nothing else (R125), so the status the answer leaves is Idle. -/
theorem State.stop_frame_of_waiting {s : State} (hs : s.status = .running) {r : Request} (hreq : s.request = some r) :
    s.stop.request = some r ∧ s.stop.pc = s.pc ∧ s.stop.input = s.input ∧ s.stop.cfg = s.cfg ∧
      (if s.stop.stopPending && decide (s.stop.status = .running) then Status.idle else s.stop.status) = .idle := by
  rw [State.stop_of_waiting hs hreq]
  exact ⟨hreq, rfl, rfl, rfl, by simp [hs]⟩

/-- Settles O58: the stop is held back, and the instruction the answer runs gives it effect. -/
theorem stopDuringInputTakesEffectAfterStep : Obligations.StopDuringInputTakesEffectAfterStep := by
  refine ⟨fun s a hs => ⟨fun hreq v p hanswer => ?_, fun hreq text p hanswer => ?_⟩,
    fun s hinv hs => ⟨fun hreq v => ?_, fun hreq text hvalid => ?_⟩⟩
  all_goals
    have hstop := State.stop_of_waiting hs hreq
    obtain ⟨hrequest, hpc, hinput, hcfg, hidle⟩ := State.stop_frame_of_waiting hs hreq
  · exact ⟨_, hstop, exec_inp_of_answered (hinput ▸ hanswer) a, hidle, rfl, by rw [hpc]⟩
  · exact ⟨_, hstop, exec_ina_of_answered (hcfg ▸ hinput ▸ hanswer) a, hidle, rfl, by rw [hpc]⟩
  · obtain ⟨a, texts, -, -, hnext⟩ := hinv.stop.answerInteger hrequest v
    exact ⟨_, hstop, hnext, hidle, rfl, by rw [hpc]⟩
  · obtain ⟨a, ns, -, hnext⟩ := hinv.stop.answerAscii hrequest (hcfg ▸ hvalid)
    exact ⟨_, hstop, hnext, hidle, rfl, by rw [hpc]⟩

/-! ### The run loop -/

/-- What holds throughout a run: the invariant, and Running, or Halted at a word that halts. -/
structure State.InRun (s : State) : Prop where
  inv : s.Inv
  status : s.status = .running ∨ (s.status = .halted ∧ ∃ i, s.current = some i ∧ i.halts = true)

/-- No stop is held back over a step that completes: it would wait for an answer still (R125, R108). -/
theorem State.Inv.stopPending_eq_false_of_completed {s t : State} (h : s.Inv) {i : Instr} (hi : s.current = some i)
    (hexec : exec i s.begun.fetch.2 = .next t) (hreq : t.request = none) : s.stopPending = false := by
  cases hasked : s.request with
  | none => exact h.resumable.stopPending_eq_false hasked
  | some r =>
    obtain ⟨-, hunanswered, j, hj, hasks⟩ := h.waiting hasked
    cases hi.symm.trans hj
    have hwait := exec_of_unanswered (s := s.begun.fetch.2) hasks hunanswered
    cases hwait.symm.trans hexec
    cases hreq

theorem State.InRun.step {s t : State} (h : s.InRun) (hs : s.status = .running) (hstep : step s = .next t) :
    t.InRun := by
  refine ⟨h.inv.resumable.step_inv hstep, ?_⟩
  cases step_outcome hstep with
  | halted hhalted _ => cases hs.symm.trans hhalted
  | waited i r _ _ hwait =>
    rw [hwait.next]
    exact .inl hs
  | completed i hne hi hexec hdone =>
    have hstatus := hdone.status
      (h.inv.stopPending_eq_false_of_completed hi hexec (hdone.request_eq_none rfl))
    cases hhalts : i.halts with
    | true =>
      have ht := h.inv.resumable.step_of_current_halts hne hi hhalts hstep
      exact .inr ⟨by rw [ht], i, by rw [ht]; exact hi, hhalts⟩
    | false =>
      rw [hhalts] at hstatus
      exact .inl (hstatus.trans hs)
  | invalid op _ hi _ =>
    obtain ⟨i, hsome⟩ := h.inv.dataFits.exists_current
    cases hi.symm.trans hsome

theorem State.InRun.exists_scheduledStep {s : State} (h : s.InRun) : ∃ t, s.scheduledStep = .next t ∧ t.InRun := by
  obtain hs | ⟨hs, -⟩ := h.status
  · obtain ⟨t, hstep⟩ := stepAlwaysAnswersNextState s
    exact ⟨t, (State.scheduledStep_of_running hs).trans hstep, h.step hs hstep⟩
  · exact ⟨s, State.scheduledStep_of_not_running (by simp [hs]), h⟩

theorem State.InRun.runLoop {s t : State} {n : Nat} (h : s.InRun) (hrun : s.runLoop n = .next t) : t.InRun := by
  induction n generalizing s with
  | zero =>
    cases hrun
    exact h
  | succ n ih =>
    obtain ⟨u, hu, hinrun⟩ := h.exists_scheduledStep
    exact ih hinrun ((State.runLoop_succ n hu).symm.trans hrun)

theorem State.runLoop_of_not_running {s : State} (hs : s.status ≠ .running) (m : Nat) : s.runLoop m = .next s := by
  induction m with
  | zero => rfl
  | succ m ih => rw [State.runLoop_succ m (State.scheduledStep_of_not_running hs), ih]

/-- A run of n + m steps is a run of m steps from where n steps led. -/
theorem State.runLoop_add {s t : State} {n : Nat} (h : s.runLoop n = .next t) (m : Nat) :
    s.runLoop (n + m) = t.runLoop m := by
  induction n generalizing s with
  | zero =>
    cases h
    rw [Nat.zero_add]
  | succ n ih =>
    cases hstep : s.scheduledStep with
    | next u =>
      rw [State.runLoop_succ n hstep] at h
      rw [Nat.succ_add, State.runLoop_succ _ hstep, ih h]
    | fault f => simp [State.runLoop, hstep] at h
    | refused r => simp [State.runLoop, hstep] at h

/-- Settles O59: the run keeps to Running or Halted, and a state that is not Running is where every longer run ends. -/
theorem runEndsAtHltOrInvalidWord : Obligations.RunEndsAtHltOrInvalidWord := by
  intro s t n hinv hs hrun
  obtain ⟨htinv, hstatus⟩ := State.InRun.runLoop ⟨hinv, .inl hs⟩ hrun
  refine ⟨htinv, ?notIdle, fun hhalted => ?ends, fun hne m => ?stays, fun hrunning hreq => ?stopped⟩
  case notIdle => obtain hs | ⟨hs, -⟩ := hstatus <;> simp [hs]
  case ends =>
    obtain hrunning | ⟨-, hcur⟩ := hstatus
    · cases hrunning.symm.trans hhalted
    · exact t.exists_current_halts_iff.mp hcur
  case stays => rw [State.runLoop_add hrun, State.runLoop_of_not_running hne]
  case stopped =>
    rw [State.stop_of_running hrunning hreq]
    refine ⟨rfl, State.runLoop_of_not_running (by simp), fun f hf => ?_⟩
    rw [State.run_of_idle hf rfl, ← hrunning]

/-! ### save() and load() -/

theorem State.load_of_not_running {u : State} (hu : u.status ≠ .running) (f : Snapshot) :
    u.load (some f) = { u with
      cfg := { u.cfg with wordWidth := f.wordWidth, opcodeWidth := f.opcodeWidth }
      pc := f.pc, acc := f.acc, mem := Memory.ofWords 0 f.words, memLen := f.words.length
      status := .idle, request := none, stopPending := false } := by
  cases hs : u.status with
  | running => exact absurd hs hu
  | idle | halted => simp only [State.load, hs]

/-- The words saved are those of the memory, and beyond them it holds 0 (10_state.md R26). -/
theorem read_ofWords_save {s : State} (h : s.wordsFit) (a : Nat) :
    Memory.read (Memory.ofWords 0 s.save.words) a = Memory.read s.mem a := by
  rw [Memory.read_ofWords, if_pos (Nat.zero_le a), Nat.sub_zero, State.save]
  by_cases ha : a < s.memLen
  · simp [List.getD, ha]
  · obtain hzero | hmem := Memory.read_mem s.mem a
    · simp [List.getD, ha, hzero]
    · exact absurd (h _ hmem).2 ha

/-- Settles O60: load takes over what save wrote down. -/
theorem saveThenLoadRestoresState : Obligations.SaveThenLoadRestoresState := by
  intro s u hs hu
  rw [State.load_of_not_running hu]
  exact ⟨rfl, rfl, rfl, rfl, by simp [State.save], rfl, read_ofWords_save hs, rfl⟩

end Sys2Proof.Machine
end
